-- ==== Sys2Proof/Word.lean ====
section
/-! DEFINITION. The word and byte types (R6, R9 of spec/00_scope.md): every register, memory cell, address and
instruction is a 16-bit bit vector, a character is an 8-bit one. -/

namespace Sys2Proof

/-- `XLEN` = 16 (R6). `+` on it is addition modulo 2^16, `&&&` and `~~~` act on all 16 bits (R9). -/
abbrev Word := BitVec 16

/-- One character of the host channels (R12). -/
abbrev Byte := BitVec 8

end Sys2Proof
end

