-- ==== Sys2Proof/Syntax.lean ====
section
/-! DEFINITION. The instructions, one constructor per row of spec/opcode_table.json (ADD and AND have two rows each, for the
register and the immediate mode). Operands are the fields of R92 and R98 of spec/30_encoding.md; ignored bits (R110) are no
operands. -/

namespace Sys2Proof

/-- The eight general registers, named as R20 of spec/10_state.md names them. -/
inductive Reg where
  | r0 | r1 | r2 | r3 | r4 | r5 | r6 | r7
  deriving DecidableEq, Repr

/-- The instruction set (R96 to R98 of spec/30_encoding.md). -/
inductive Instr where
  /-- BR, conditional branch (R170). -/
  | br (n z p : Bool) (off9 : BitVec 9)
  /-- ADD, register mode (R150). -/
  | addR (dst src1 src2 : Reg)
  /-- ADD, immediate mode (R151). -/
  | addI (dst src1 : Reg) (imm5 : BitVec 5)
  /-- LD, load PC-relative (R190). -/
  | ld (dst : Reg) (off9 : BitVec 9)
  /-- ST, store PC-relative (R210). -/
  | st (src : Reg) (off9 : BitVec 9)
  /-- JSRR, subroutine call through a register (R173). -/
  | jsrr (base : Reg)
  /-- JSR, subroutine call, PC-relative (R172). -/
  | jsr (off11 : BitVec 11)
  /-- AND, register mode (R152). -/
  | andR (dst src1 src2 : Reg)
  /-- AND, immediate mode (R153). -/
  | andI (dst src1 : Reg) (imm5 : BitVec 5)
  /-- LDR, load base plus offset (R192). -/
  | ldr (dst base : Reg) (off6 : BitVec 6)
  /-- STR, store base plus offset (R212). -/
  | str (src base : Reg) (off6 : BitVec 6)
  /-- RTI, the unimplemented opcode 1000 (R260). -/
  | rti
  /-- NOT (R154). -/
  | notR (dst src : Reg)
  /-- LDI, load indirect (R191). -/
  | ldi (dst : Reg) (off9 : BitVec 9)
  /-- STI, store indirect (R211). -/
  | sti (src : Reg) (off9 : BitVec 9)
  /-- JMP through a register other than R7 (R171). -/
  | jmp (base : Reg)
  /-- RET, the JMP whose base is R7 (R171, R114); DESIGN CHOICE, log 14: a constructor of its own. -/
  | ret
  /-- RES, the reserved opcode 1101 (R261). -/
  | res
  /-- LEA, load effective address (R193). -/
  | lea (dst : Reg) (off9 : BitVec 9)
  /-- TRAP with vector 0x20 (R231). -/
  | trapGetc
  /-- TRAP with vector 0x21 (R232). -/
  | trapOut
  /-- TRAP with vector 0x22 (R233). -/
  | trapPuts
  /-- TRAP with vector 0x23 (R234). -/
  | trapIn
  /-- TRAP with vector 0x24 (R235). -/
  | trapPutsp
  /-- TRAP with vector 0x25 (R236). -/
  | trapHalt
  /-- TRAP with any other vector (R237). -/
  | trapOther (vect : BitVec 8)
  deriving DecidableEq, Repr

end Sys2Proof
end

