-- ==== Sys2Proof/WellFormed.lean ====
section
/-! DEFINITION. Which terms of `Instr` some instruction word stands for. Field widths are in the types; the two checks left
are between neighbouring rows of the opcode table. -/

namespace Sys2Proof

/-- The vectors of the six built-in routines are 0x20 to 0x25 (R97 of spec/30_encoding.md). -/
def isRoutineVector (v : BitVec 8) : Bool :=
  0x20 ≤ v.toNat && v.toNat ≤ 0x25

/-- A JMP through R7 is the row RET (R114), and a TRAP with a routine's vector is that routine's row (R230): the catch-all
rows stand only for the words that are left. -/
def wellFormed : Instr → Bool
  | .jmp base => base != .r7
  | .trapOther v => !isRoutineVector v
  | .br .. | .addR .. | .addI .. | .ld .. | .st .. | .jsrr .. | .jsr .. | .andR .. | .andI .. | .ldr .. | .str .. | .rti
  | .notR .. | .ldi .. | .sti .. | .ret | .res | .lea .. | .trapGetc | .trapOut | .trapPuts | .trapIn | .trapPutsp
  | .trapHalt => true

end Sys2Proof
end

