-- ==== Sys2Proof/Decode.lean ====
section
/-! DEFINITION. Decoding an instruction word (R98 of spec/30_encoding.md) and, after it, encoding an instruction (R92, R96,
R97). Opcode numbers other than ADD's and AND's and most field positions are PRESUMED (log 11), the trap vectors PRESUMED
(log 12). -/

namespace Sys2Proof

/-- A 3-bit register field selects R0 to R7 by its unsigned value (R20). -/
def Reg.ofBits (b : BitVec 3) : Reg :=
  match b.toFin with
  | 0 => .r0 | 1 => .r1 | 2 => .r2 | 3 => .r3 | 4 => .r4 | 5 => .r5 | 6 => .r6 | 7 => .r7

/-- The 3-bit number of a register. -/
def Reg.toBits : Reg → BitVec 3
  | .r0 => 0 | .r1 => 1 | .r2 => 2 | .r3 => 3 | .r4 => 4 | .r5 => 5 | .r6 => 6 | .r7 => 7

/-- `instr[lo+n-1:lo]` (R8). -/
def bitsAt (lo n : Nat) (w : Word) : BitVec n := w.extractLsb' lo n

/-- The register named by `instr[lo+2:lo]`. -/
def regAt (lo : Nat) (w : Word) : Reg := Reg.ofBits (bitsAt lo 3 w)

/-- Opcode 1100: RET when the base field is 7, else JMP (R171, R114). -/
def decodeJmp (base : Reg) : Instr :=
  if base = .r7 then .ret else .jmp base

/-- Opcode 1111: the vector selects the routine (R230, R97); any other vector is the catch-all row. -/
def decodeTrap (vect : BitVec 8) : Instr :=
  if vect = 0x20#8 then .trapGetc
  else if vect = 0x21#8 then .trapOut
  else if vect = 0x22#8 then .trapPuts
  else if vect = 0x23#8 then .trapIn
  else if vect = 0x24#8 then .trapPutsp
  else if vect = 0x25#8 then .trapHalt
  else .trapOther vect

/-- The decode algorithm of R98, the four opcode bits `instr[15:12]` in order (R91, R96): total, every word is an instruction
(R96, R111), and ignored bits are not looked at (R110). -/
def decode (w : Word) : Instr :=
  match w.getLsbD 15, w.getLsbD 14, w.getLsbD 13, w.getLsbD 12 with
  | false, false, false, false => .br (w.getLsbD 11) (w.getLsbD 10) (w.getLsbD 9) (bitsAt 0 9 w)
  | false, false, false, true =>
    if w.getLsbD 5 then .addI (regAt 9 w) (regAt 6 w) (bitsAt 0 5 w) else .addR (regAt 9 w) (regAt 6 w) (regAt 0 w)
  | false, false, true, false => .ld (regAt 9 w) (bitsAt 0 9 w)
  | false, false, true, true => .st (regAt 9 w) (bitsAt 0 9 w)
  | false, true, false, false => if w.getLsbD 11 then .jsr (bitsAt 0 11 w) else .jsrr (regAt 6 w)
  | false, true, false, true =>
    if w.getLsbD 5 then .andI (regAt 9 w) (regAt 6 w) (bitsAt 0 5 w) else .andR (regAt 9 w) (regAt 6 w) (regAt 0 w)
  | false, true, true, false => .ldr (regAt 9 w) (regAt 6 w) (bitsAt 0 6 w)
  | false, true, true, true => .str (regAt 9 w) (regAt 6 w) (bitsAt 0 6 w)
  | true, false, false, false => .rti
  | true, false, false, true => .notR (regAt 9 w) (regAt 6 w)
  | true, false, true, false => .ldi (regAt 9 w) (bitsAt 0 9 w)
  | true, false, true, true => .sti (regAt 9 w) (bitsAt 0 9 w)
  | true, true, false, false => decodeJmp (regAt 6 w)
  | true, true, false, true => .res
  | true, true, true, false => .lea (regAt 9 w) (bitsAt 0 9 w)
  | true, true, true, true => decodeTrap (bitsAt 0 8 w)

/-- Why a sequence of words holds no instruction. No word is refused (R111); only a missing one is. -/
inductive DecodeError where
  /-- The sequence has no word left. -/
  | noWord
  deriving DecidableEq, Repr

/-- The instruction at the head of a sequence of words, with the words after it: every instruction is exactly one word
(R90). -/
def decodeWords : List Word → Except DecodeError (Instr × List Word)
  | [] => .error .noWord
  | w :: rest => .ok (decode w, rest)

/-- The decoder on a row of spec/opcode_table.json: `w` holds the instruction's bits, numbered as R8 numbers them; bits from
`nbits` up are zero. No instruction is longer than one word (R90). -/
def decodeTableWord (nbits w : Nat) : Option Instr :=
  if nbits ≤ 16 then
    match decodeWords [BitVec.ofNat 16 (w % 2 ^ nbits)] with
    | .ok (i, _) => some i
    | .error _ => none
  else none

/-- A field's bits put at bit `lo` of a word, the rest zero. -/
def putAt (lo : Nat) {n : Nat} (f : BitVec n) : Word := f.setWidth 16 <<< lo

/-- The opcode number of an instruction (R96). -/
def opcode : Instr → BitVec 4
  | .br .. => 0x0
  | .addR .. | .addI .. => 0x1
  | .ld .. => 0x2
  | .st .. => 0x3
  | .jsrr .. | .jsr .. => 0x4
  | .andR .. | .andI .. => 0x5
  | .ldr .. => 0x6
  | .str .. => 0x7
  | .rti => 0x8
  | .notR .. => 0x9
  | .ldi .. => 0xA
  | .sti .. => 0xB
  | .jmp .. | .ret => 0xC
  | .res => 0xD
  | .lea .. => 0xE
  | .trapGetc | .trapOut | .trapPuts | .trapIn | .trapPutsp | .trapHalt | .trapOther .. => 0xF

/-- The trap vector of a routine's row (R97). -/
def trapVector : Instr → BitVec 8
  | .trapGetc => 0x20
  | .trapOut => 0x21
  | .trapPuts => 0x22
  | .trapIn => 0x23
  | .trapPutsp => 0x24
  | .trapHalt => 0x25
  | .trapOther v => v
  | .br .. | .addR .. | .addI .. | .ld .. | .st .. | .jsrr .. | .jsr .. | .andR .. | .andI .. | .ldr .. | .str .. | .rti
  | .notR .. | .ldi .. | .sti .. | .jmp .. | .ret | .res | .lea .. => 0

/-- The operand bits of an instruction, below its opcode (the formats of R92). Ignored bits are written as R113 writes them:
ones in NOT's bits 5:0, zeros everywhere else (log 13). -/
def operandBits : Instr → Word
  | .br n z p off9 => putAt 11 (BitVec.ofBool n) ||| putAt 10 (BitVec.ofBool z) ||| putAt 9 (BitVec.ofBool p) ||| putAt 0 off9
  | .addR dst src1 src2 | .andR dst src1 src2 => putAt 9 dst.toBits ||| putAt 6 src1.toBits ||| putAt 0 src2.toBits
  | .addI dst src1 imm5 | .andI dst src1 imm5 =>
    putAt 9 dst.toBits ||| putAt 6 src1.toBits ||| putAt 5 1#1 ||| putAt 0 imm5
  | .ld r off9 | .st r off9 | .ldi r off9 | .sti r off9 | .lea r off9 => putAt 9 r.toBits ||| putAt 0 off9
  | .jsrr base | .jmp base => putAt 6 base.toBits
  | .ret => putAt 6 Reg.r7.toBits
  | .jsr off11 => putAt 11 1#1 ||| putAt 0 off11
  | .ldr r base off6 | .str r base off6 => putAt 9 r.toBits ||| putAt 6 base.toBits ||| putAt 0 off6
  | .rti | .res => 0
  | .notR dst src => putAt 9 dst.toBits ||| putAt 6 src.toBits ||| putAt 0 0x3F#6
  | .trapGetc => putAt 0 (trapVector .trapGetc)
  | .trapOut => putAt 0 (trapVector .trapOut)
  | .trapPuts => putAt 0 (trapVector .trapPuts)
  | .trapIn => putAt 0 (trapVector .trapIn)
  | .trapPutsp => putAt 0 (trapVector .trapPutsp)
  | .trapHalt => putAt 0 (trapVector .trapHalt)
  | .trapOther v => putAt 0 v

/-- The instruction's word. -/
def encode (i : Instr) : Word := putAt 12 (opcode i) ||| operandBits i

/-- The bits of an instruction's word that decoding looks at; the others are the ignored bits of R110. -/
def significantBits : Instr → Word
  | .br .. | .ld .. | .st .. | .ldi .. | .sti .. | .lea .. | .ldr .. | .str .. | .jsr .. => 0xFFFF
  | .addR .. | .andR .. => 0xFFE7
  | .addI .. | .andI .. => 0xFFFF
  | .notR .. => 0xFFC0
  | .jmp .. | .ret => 0xF1C0
  | .jsrr .. => 0xF9C0
  | .rti | .res => 0xF000
  | .trapGetc | .trapOut | .trapPuts | .trapIn | .trapPutsp | .trapHalt | .trapOther .. => 0xF0FF

end Sys2Proof
end

