-- ==== Sys2Proof/Config.lean ====
section
/-! DEFINITION. The parameters the spec leaves open (R7 of spec/00_scope.md), as one record. The machine carries a value of
it (`State.cfg`), so a statement about every state is a statement about every value of every parameter; the recommended
defaults are in Machine/Defaults.lean. -/

namespace Sys2Proof

/-- The named parameters of R7. -/
structure Config where
  /-- `PC_START`, the address of the first instruction fetched (D8). -/
  pcStart : Word
  /-- `GPR_RESET`, the value of all eight registers at reset (D6). -/
  gprReset : Word
  /-- `COND_RESET`, the flags at reset (D5). -/
  condReset : BitVec 3
  /-- `MEM_RESET`, the value of every cell before an image is loaded (D7). -/
  memReset : Word
  /-- `KBSR_ADDR`, the address of the keyboard status cell (D10). -/
  kbsrAddr : Word
  /-- `KBDR_ADDR`, the address of the keyboard data cell (D10). -/
  kbdrAddr : Word
  /-- `KBSR_READY`, the ready pattern (D11). -/
  kbsrReady : Word
  /-- `IN_PROMPT`, the bytes the IN routine writes first (D20). -/
  inPrompt : List Byte
  /-- `HALT_NOTICE`, the bytes the HALT routine writes (D21). -/
  haltNotice : List Byte
  deriving DecidableEq, Repr

/-- A pattern with exactly one bit set (R7, the type of `KBSR_READY`). -/
def oneBitSet (w : Word) : Bool :=
  (List.range 16).any fun i => w == BitVec.ofNat 16 (2 ^ i)

/-- What R7 requires of the parameters: the two keyboard cells are different cells and the ready pattern has exactly one
bit set. -/
def Config.ok (c : Config) : Bool :=
  c.kbsrAddr != c.kbdrAddr && oneBitSet c.kbsrReady

end Sys2Proof
end

