-- ==== Sys2Proof/Machine/Defaults.lean ====
section
/-! DEFINITION. The recommended defaults of the open parameters (R7 of spec/00_scope.md), the values every test vector of the
spec assumes. None is the source's own: each is DESIGN CHOICE or PRESUMED, see the log entry named beside it. -/

namespace Sys2Proof.Machine

/-- `PC_START` = 0x3000. PRESUMED (GK12, D8), log 5: unsafe. -/
def defaultPcStart : Word := 0x3000

/-- `GPR_RESET` = 0x0000. DESIGN CHOICE (D6), log 3: unsafe. -/
def defaultGprReset : Word := 0x0000

/-- `COND_RESET` = 0b000, no flag set. DESIGN CHOICE (D5), log 4: unsafe. -/
def defaultCondReset : BitVec 3 := 0b000

/-- `MEM_RESET` = 0x0000. DESIGN CHOICE (D7), log 2: unsafe. -/
def defaultMemReset : Word := 0x0000

/-- `KBSR_ADDR` = 0xFE00. PRESUMED (GK10, D10), log 7: unsafe. -/
def defaultKbsrAddr : Word := 0xFE00

/-- `KBDR_ADDR` = 0xFE02. PRESUMED (GK10, D10), log 7: unsafe. -/
def defaultKbdrAddr : Word := 0xFE02

/-- `KBSR_READY` = 0x8000, bit 15. PRESUMED (GK11, D11), log 7: unsafe. -/
def defaultKbsrReady : Word := 0x8000

/-- `IN_PROMPT`: the 19 bytes "Enter a character: ". PRESUMED (GK13, D20), log 8: unsafe. -/
def defaultInPrompt : List Byte :=
  [0x45, 0x6E, 0x74, 0x65, 0x72, 0x20, 0x61, 0x20, 0x63, 0x68, 0x61, 0x72, 0x61, 0x63, 0x74, 0x65, 0x72, 0x3A, 0x20]

/-- `HALT_NOTICE`: the 5 bytes "HALT\n". PRESUMED (GK14, D21), log 8: unsafe. -/
def defaultHaltNotice : List Byte := [0x48, 0x41, 0x4C, 0x54, 0x0A]

/-- The parameters at their defaults (R7). -/
def defaultConfig : Config where
  pcStart := defaultPcStart
  gprReset := defaultGprReset
  condReset := defaultCondReset
  memReset := defaultMemReset
  kbsrAddr := defaultKbsrAddr
  kbdrAddr := defaultKbdrAddr
  kbsrReady := defaultKbsrReady
  inPrompt := defaultInPrompt
  haltNotice := defaultHaltNotice

end Sys2Proof.Machine
end

