-- ==== Sys2Proof/Machine/State.lean ====
section
/-! DEFINITION. The machine's state as plain data (spec/10_state.md), its fault and refusal reasons, and the state after
reset (R38, R301). -/

namespace Sys2Proof.Machine

/-- The eight general registers, 16 bits each (R20); none is hardwired, banked or aliased (R21). -/
structure RegFile where
  r0 : Word
  r1 : Word
  r2 : Word
  r3 : Word
  r4 : Word
  r5 : Word
  r6 : Word
  r7 : Word
  deriving DecidableEq, Repr

/-- The run state (R32). -/
inductive RunState where
  /-- Steps are taken. -/
  | running
  /-- Terminal, left by the HALT routine (R236). -/
  | halted
  /-- Terminal, left by the fatal abort (R271). -/
  | aborted
  deriving DecidableEq, Repr

/-- One memory cell: its address and its 16-bit content. The cell is the smallest addressable unit (R34); DEDUCED, log 1. -/
abbrev Cell := Nat × Word

/-- Memory (R34) in one canonical form, `Memory.wf` of Ops.lean: addresses strictly rising and below 65536, no cell listed
that holds what an unlisted one reads as. -/
abbrev Memory := List Cell

/-- What a cell that is not listed reads as: the default of `MEM_RESET` (R38). DESIGN CHOICE (D7), log 2: unsafe. -/
def unlisted : Word := 0x0000

/-- The two string routines (R233, R235). -/
inductive StringKind where
  /-- PUTS: one character a word. -/
  | puts
  /-- PUTSP: two characters a word. -/
  | putsp
  deriving DecidableEq, Repr

/-- A built-in routine that has begun and not ended: the step that called it is held (R279), or its string has not ended
(R316). DESIGN CHOICE, log 17 and 18. -/
inductive Routine where
  /-- GETC, waiting in `InRead()`. -/
  | getc
  /-- IN, its prompt written, waiting in `InRead()`. -/
  | inn
  /-- PUTS or PUTSP, the next word to read at `addr`. -/
  | string (kind : StringKind) (addr : Word)
  deriving DecidableEq, Repr

/-- One item of the environment's input (R12). A list of them is the bytes to come together with the environment's answers
to `InAvail()`: see `State.inAvail` in Ops.lean and log 15. -/
inductive InEvent where
  /-- A byte that can be taken. -/
  | byte (b : Byte)
  /-- The environment answers one `InAvail()` with false before the next byte. -/
  | quiet
  deriving DecidableEq, Repr

/-- One item of the output history (R12, R37). -/
inductive OutEvent where
  /-- `OutWrite(b)`. -/
  | byte (b : Byte)
  /-- `OutFlush()`. -/
  | flush
  deriving DecidableEq, Repr

/-- The label of an abort: which of the two causes raised it (R272). It stands in the model's trace only; the hardware keeps
no such code. -/
inductive AbortCause where
  | rti
  | res
  deriving DecidableEq, Repr

/-- The whole state. -/
structure State where
  /-- R0 to R7 (R20). -/
  regs : RegFile
  /-- The program counter (R24). -/
  pc : Word
  /-- COND: bit 2 is N, bit 1 is Z, bit 0 is P (R27). -/
  cond : BitVec 3
  /-- The run state (R32). -/
  run : RunState
  /-- Memory, the keyboard cells in it (R34, R35). -/
  mem : Memory
  /-- The routine of a step that has begun and not completed (R279, R316), if any. -/
  pending : Option Routine
  /-- The input sequence with the environment's answers to `InAvail()` (R12, R37). -/
  input : List InEvent
  /-- The output history, oldest first (R12, R37). -/
  output : List OutEvent
  /-- The abort reports of the diagnostic channel, oldest first (R271); their text is open (D23), log 19. -/
  reports : List AbortCause
  /-- The machine's parameters (R7); no step changes them, log 9. -/
  cfg : Config
  deriving DecidableEq, Repr

/-- Why a step can stop. No instruction's meaning raises one: the machine has no faulting instruction (R273), and the fatal
abort is a next state whose `run` is ABORTED. -/
inductive Fault where
  /-- Raised by `step` in a state whose `run` is HALTED: no step exists there (R138). Safe: the model stops where the
  hardware stops. -/
  | noStepHalted
  /-- Raised by `step` in a state whose `run` is ABORTED: no step exists there (R138). Safe: the model stops where the
  hardware stops. -/
  | noStepAborted
  deriving DecidableEq, Repr

/-- Why an instruction can be refused. -/
inductive Refusal where
  /-- Raised by `exec` for an instruction that has no meaning yet; no arm of this model does. Safe: the model stops where the
  hardware goes on. -/
  | notModelled (mnemonic : String)
  deriving DecidableEq, Repr

/-- All 65536 cells holding `v`, in canonical form. -/
def Memory.filled (v : Word) : Memory :=
  if v = unlisted then [] else (List.range 65536).map fun a => (a, v)

/-- The state of `reset_and_boot` with no image (R301, R38): every register, flag and cell at its parameter, nothing read,
written or reported. `run` is RUNNING (D35), log 6; `input` is empty, log 16. -/
def State.resetWith (c : Config) : State where
  regs := ⟨c.gprReset, c.gprReset, c.gprReset, c.gprReset, c.gprReset, c.gprReset, c.gprReset, c.gprReset⟩
  pc := c.pcStart
  cond := c.condReset
  run := .running
  mem := Memory.filled c.memReset
  pending := none
  input := []
  output := []
  reports := []
  cfg := c

/-- The machine right after reset, the parameters at their defaults (R38). -/
def State.reset : State := State.resetWith defaultConfig

end Sys2Proof.Machine
end

