-- ==== Sys2Proof/Machine/Ops.lean ====
section
/-! DEFINITION. The named operations on registers, memory, the keyboard cells and the host channels, and the fatal abort.
Every meaning goes through them. -/

namespace Sys2Proof.Machine

/-! ### Registers (R20, R21) -/

/-- The content of a register. -/
def RegFile.get (f : RegFile) : Reg → Word
  | .r0 => f.r0 | .r1 => f.r1 | .r2 => f.r2 | .r3 => f.r3 | .r4 => f.r4 | .r5 => f.r5 | .r6 => f.r6 | .r7 => f.r7

/-- The registers after one is written. -/
def RegFile.set (f : RegFile) (r : Reg) (v : Word) : RegFile :=
  match r with
  | .r0 => { f with r0 := v } | .r1 => { f with r1 := v } | .r2 => { f with r2 := v } | .r3 => { f with r3 := v }
  | .r4 => { f with r4 := v } | .r5 => { f with r5 := v } | .r6 => { f with r6 := v } | .r7 => { f with r7 := v }

/-- `x[r]` (R10). -/
def State.reg (s : State) (r : Reg) : Word := s.regs.get r

/-- `x[r] <- v` (R10). -/
def State.setReg (s : State) (r : Reg) (v : Word) : State := { s with regs := s.regs.set r v }

/-- `pc <- v` (R10). -/
def State.setPc (s : State) (v : Word) : State := { s with pc := v }

/-- `cond <- c` (R10). -/
def State.setCond (s : State) (c : BitVec 3) : State := { s with cond := c }

/-- `run <- r` (R10, R32). -/
def State.setRun (s : State) (r : RunState) : State := { s with run := r }

/-- Which routine, if any, the step in progress has not completed (R279, R316). -/
def State.setPending (s : State) (p : Option Routine) : State := { s with pending := p }

/-! ### Memory (R34, R50) -/

/-- The canonical form: addresses strictly rising and below 65536 (R34), no cell listed that holds what an unlisted one reads
as. Two memories in this form that read alike are equal. -/
def Memory.wf : Memory → Bool
  | [] => true
  | (a, v) :: rest => decide (a < 65536) && v != unlisted && rest.all (fun c => decide (a < c.1)) && Memory.wf rest

/-- The content of the cell at an address. -/
def Memory.read : Memory → Nat → Word
  | [], _ => unlisted
  | (b, v) :: rest, a => if a = b then v else Memory.read rest a

/-- A cell put in front of the cells above it, unless it holds what an unlisted cell reads as. -/
def Memory.put (a : Nat) (v : Word) (rest : Memory) : Memory :=
  if v = unlisted then rest else (a, v) :: rest

/-- Memory after the cell at `a` is set to `v`, in canonical form. -/
def Memory.write : Memory → Nat → Word → Memory
  | [], a, v => Memory.put a v []
  | (b, w) :: rest, a, v =>
    if a < b then Memory.put a v ((b, w) :: rest)
    else if a = b then Memory.put a v rest
    else (b, w) :: Memory.write rest a v

/-- `M[a]`: the raw content of a cell, with no side effect (R10). -/
def State.peek (s : State) (a : Word) : Word := s.mem.read a.toNat

/-- `MemWrite(a, 1, v)`: `M[a] <- v` at every address, the keyboard cells included, and nothing else (R52). -/
def State.memWrite (s : State) (a v : Word) : State := { s with mem := s.mem.write a.toNat v }

/-! ### The input channel (R12) -/

/-- The input sequence replaced. -/
def State.setInput (s : State) (i : List InEvent) : State := { s with input := i }

/-- `zext_16(b)` (R11). -/
def zext16 (b : Byte) : Word := b.setWidth 16

/-- `InAvail()`: the environment's answer, with the state after it is given (R12). True means the next item is a byte, which
an `InRead()` in the same step takes at once; false either uses up a quiet mark, the environment's own choice to answer no,
or is forced because no byte is there. -/
def State.inAvail (s : State) : Bool × State :=
  match s.input with
  | [] => (false, s)
  | .quiet :: rest => (false, s.setInput rest)
  | .byte _ :: _ => (true, s)

/-- The first byte of an input sequence and what is left after it; a blocking read waits through quiet marks. -/
def takeByte : List InEvent → Option (Byte × List InEvent)
  | [] => none
  | .byte b :: rest => some (b, rest)
  | .quiet :: rest => takeByte rest

/-- `InRead()`: the next byte, with the state after it is taken; none while the environment has supplied no byte, when the
step that called it is held (R12, R279). -/
def State.inRead (s : State) : Option (Byte × State) :=
  match takeByte s.input with
  | some (b, rest) => some (b, s.setInput rest)
  | none => none

/-! ### The output channel (R12) -/

/-- Items appended to the output history. -/
def State.emit (s : State) (es : List OutEvent) : State := { s with output := s.output ++ es }

/-- `OutWrite(b)` (R11). -/
def State.outWrite (s : State) (b : Byte) : State := s.emit [.byte b]

/-- `OutWrite` of each byte in order. -/
def State.outWrites (s : State) (bs : List Byte) : State := s.emit (bs.map .byte)

/-- `OutFlush()` (R11). -/
def State.outFlush (s : State) : State := s.emit [.flush]

/-! ### Reading memory (R51, R53) -/

/-- What a read of `KBSR_ADDR` does before it completes (R51, R53): with input available the whole status cell becomes
`KBSR_READY` and the next byte is latched, zero-extended, into the data cell; without, the ready bit of the status cell is
cleared and nothing else changes (D12, D13, log 23). -/
def State.poll (s : State) : State :=
  match s.inAvail with
  | (true, s1) =>
    let s2 := s1.memWrite s1.cfg.kbsrAddr s1.cfg.kbsrReady
    match s2.inRead with
    | some (b, s3) => s3.memWrite s3.cfg.kbdrAddr (zext16 b)
    | none => s2 -- never: after the answer true a byte is there (R12)
  | (false, s1) => s1.memWrite s1.cfg.kbsrAddr (s1.peek s1.cfg.kbsrAddr &&& ~~~ s1.cfg.kbsrReady)

/-- The device update a read of address `a` performs: the poll at `KBSR_ADDR`, nothing anywhere else (R51, R54). -/
def State.polled (s : State) (a : Word) : State :=
  if a = s.cfg.kbsrAddr then s.poll else s

/-- `MemRead(a, 1)`: the device update first, then the content of the cell (R51). -/
def State.memRead (s : State) (a : Word) : Word × State :=
  ((s.polled a).peek a, s.polled a)

/-- The fetch and the increment of a step: the word at the pc, read as any other (R132), and the state with the pc one
higher, modulo 2^16 (R130, R131). -/
def State.fetch (s : State) : Word × State :=
  let r := s.memRead s.pc
  (r.1, r.2.setPc (r.2.pc + 1))

/-! ### The fatal abort (R271)

The only exception. It saves nothing and has no handler, so there is no return from it: RTI, which in other machines returns
from an exception, raises it (R281). -/

/-- `AbortReport()`: one report on the diagnostic channel (R271). -/
def State.report (s : State) (c : AbortCause) : State := { s with reports := s.reports ++ [c] }

/-- `raise Abort(c)`: one report, `run <- ABORTED`, nothing else (R271). -/
def State.raiseAbort (s : State) (c : AbortCause) : State := (s.report c).setRun .aborted

end Sys2Proof.Machine
end

