-- ==== Sys2Proof/Machine/Flags.lean ====
section
/-! DEFINITION. The condition flags (R27 of spec/10_state.md, R135 and R136 of spec/40_step_and_common.md). The bit values
are PRESUMED (GK8, D9), log 10. -/

namespace Sys2Proof.Machine

/-- POSITIVE (R27). -/
def ccP : BitVec 3 := 0b001

/-- ZERO (R27). -/
def ccZ : BitVec 3 := 0b010

/-- NEGATIVE (R27). -/
def ccN : BitVec 3 := 0b100

/-- The flags of a value: Z if it is zero, N if its bit 15 is 1, else P (R135). Bit 15 is tested and no other (R136). -/
def ccOf (v : Word) : BitVec 3 :=
  if v = 0x0000#16 then ccZ else if v.getLsbD 15 then ccN else ccP

/-- `SetCC(v)` (R135). -/
def State.setCC (s : State) (v : Word) : State := s.setCond (ccOf v)

/-- What a register-defining instruction does last: the destination is written, then the flags are set from the value
written (R137, R28). -/
def State.define (s : State) (dst : Reg) (v : Word) : State := (s.setReg dst v).setCC v

end Sys2Proof.Machine
end

