-- ==== Sys2Proof/Machine/Operands.lean ====
section
/-! DEFINITION. Operand forms and effective addresses (R94, R95 of spec/30_encoding.md, R194 of spec/43_load.md), sign
extension (R133 of spec/40_step_and_common.md), and the bytes of a word (R59 of spec/20_memory.md). -/

namespace Sys2Proof.Machine

/-- `sext_N(f)` (R133): bit `N-1` of the field copied into bits 15 to `N`. -/
def sext {n : Nat} (f : BitVec n) : Word := f.signExtend 16

/-- Bits 7..0 of a word (R59). -/
def lowByte (w : Word) : Byte := w.extractLsb' 0 8

/-- Bits 15..8 of a word (R59). -/
def highByte (w : Word) : Byte := w.extractLsb' 8 8

/-- `instr[11:9]` of BR: bit 2 is n, bit 1 is z, bit 0 is p (R170). -/
def brMask (n z p : Bool) : BitVec 3 :=
  (BitVec.ofBool n).setWidth 3 <<< 2 ||| (BitVec.ofBool z).setWidth 3 <<< 1 ||| (BitVec.ofBool p).setWidth 3

/-- PC-relative: the incremented pc plus the sign-extended offset, modulo 2^16 (R194, R69). -/
def State.pcRelative (s : State) {n : Nat} (off : BitVec n) : Word := s.pc + sext off

/-- Base plus offset: `x[base] + sext_6(off6)`, modulo 2^16 (R194, R69). -/
def State.basePlus (s : State) (base : Reg) (off6 : BitVec 6) : Word := s.reg base + sext off6

/-- What one word of a string writes: PUTS its low byte (R233), PUTSP its low byte and then its high byte if that is not
zero (R235). -/
def StringKind.bytes (k : StringKind) (w : Word) : List Byte :=
  match k with
  | .puts => [lowByte w]
  | .putsp => if highByte w = 0 then [lowByte w] else [lowByte w, highByte w]

end Sys2Proof.Machine
end

