-- ==== Sys2Proof/Machine/Operate.lean ====
section
/-! DEFINITION. The operate instructions ADD, AND, NOT (spec/41_operate.md). -/

namespace Sys2Proof.Machine

/-- The outcomes of this machine. -/
abbrev Result := Host.Outcome State Fault Refusal

/-- ADD, register mode (R150): the sum modulo 2^16 (R155). -/
def execAddR (dst src1 src2 : Reg) (s : State) : Result :=
  .next (s.define dst (s.reg src1 + s.reg src2))

/-- ADD, immediate mode (R151). -/
def execAddI (dst src1 : Reg) (imm5 : BitVec 5) (s : State) : Result :=
  .next (s.define dst (s.reg src1 + sext imm5))

/-- AND, register mode (R152). -/
def execAndR (dst src1 src2 : Reg) (s : State) : Result :=
  .next (s.define dst (s.reg src1 &&& s.reg src2))

/-- AND, immediate mode, the immediate sign-extended (R153). -/
def execAndI (dst src1 : Reg) (imm5 : BitVec 5) (s : State) : Result :=
  .next (s.define dst (s.reg src1 &&& sext imm5))

/-- NOT (R154). -/
def execNot (dst src : Reg) (s : State) : Result :=
  .next (s.define dst (~~~ s.reg src))

end Sys2Proof.Machine
end

