-- ==== Sys2Proof/Machine/Control.lean ====
section
/-! DEFINITION. Control transfer BR, JMP, RET, JSR, JSRR (spec/42_control.md). The pc of the state they are given is the
incremented one (R131). -/

namespace Sys2Proof.Machine

/-- BR (R170): taken when a flag the mask names is set. -/
def execBr (n z p : Bool) (off9 : BitVec 9) (s : State) : Result :=
  .next (if brMask n z p &&& s.cond = 0b000#3 then s else s.setPc (s.pcRelative off9))

/-- `pc <- x[base]`. -/
def State.jumpTo (s : State) (base : Reg) : State := s.setPc (s.reg base)

/-- The link of JSR and JSRR: `x[7] <- pc`, the return address, before the target is computed (R172, R173). -/
def State.link (s : State) : State := s.setReg .r7 s.pc

/-- JMP (R171). -/
def execJmp (base : Reg) (s : State) : Result := .next (s.jumpTo base)

/-- RET, the JMP through R7 (R171, R114). -/
def execRet (s : State) : Result := .next (s.jumpTo .r7)

/-- JSR (R172). -/
def execJsr (off11 : BitVec 11) (s : State) : Result :=
  .next (s.link.setPc (s.pcRelative off11))

/-- JSRR (R173): the base register is read after R7 is written, so `JSRR R7` goes to the return address (R318). -/
def execJsrr (base : Reg) (s : State) : Result := .next (s.link.jumpTo base)

end Sys2Proof.Machine
end

