-- ==== Sys2Proof/Machine/Load.lean ====
section
/-! DEFINITION. The loads LD, LDI, LDR and LEA (spec/43_load.md). -/

namespace Sys2Proof.Machine

/-- One `MemRead` at `ea`, its word to `dst`, the flags from it. -/
def State.loadFrom (s : State) (dst : Reg) (ea : Word) : State :=
  (s.memRead ea).2.define dst (s.memRead ea).1

/-- LD (R190). -/
def execLd (dst : Reg) (off9 : BitVec 9) (s : State) : Result :=
  .next (s.loadFrom dst (s.pcRelative off9))

/-- LDI (R191): the pointer is read first, with its device effect, then the word it points at. -/
def execLdi (dst : Reg) (off9 : BitVec 9) (s : State) : Result :=
  let p := s.memRead (s.pcRelative off9)
  .next (p.2.loadFrom dst p.1)

/-- LDR (R192): the base is read for the address before the destination is written. -/
def execLdr (dst base : Reg) (off6 : BitVec 6) (s : State) : Result :=
  .next (s.loadFrom dst (s.basePlus base off6))

/-- LEA (R193): the address itself, no memory access; the flags are set. -/
def execLea (dst : Reg) (off9 : BitVec 9) (s : State) : Result :=
  .next (s.define dst (s.pcRelative off9))

end Sys2Proof.Machine
end

