-- ==== Sys2Proof/Machine/Reserved.lean ====
section
/-! DEFINITION. The two aborting opcodes RTI and RES (spec/46_reserved.md). The abort is the exception the spec describes
(R271): a next state whose `run` is ABORTED. -/

namespace Sys2Proof.Machine

/-- RTI (R260). -/
def execRti (s : State) : Result := .next (s.raiseAbort .rti)

/-- RES (R261). -/
def execRes (s : State) : Result := .next (s.raiseAbort .res)

end Sys2Proof.Machine
end

