-- ==== Sys2Proof/Machine/Store.lean ====
section
/-! DEFINITION. The stores ST, STI, STR (spec/44_store.md): the whole source register to one cell, no flag and no register
changed (R213). -/

namespace Sys2Proof.Machine

/-- ST (R210). -/
def execSt (src : Reg) (off9 : BitVec 9) (s : State) : Result :=
  .next (s.memWrite (s.pcRelative off9) (s.reg src))

/-- STI (R211): the pointer is read, with its device effect, then the cell it points at is written. -/
def execSti (src : Reg) (off9 : BitVec 9) (s : State) : Result :=
  let p := s.memRead (s.pcRelative off9)
  .next (p.2.memWrite p.1 (p.2.reg src))

/-- STR (R212). -/
def execStr (src base : Reg) (off6 : BitVec 6) (s : State) : Result :=
  .next (s.memWrite (s.basePlus base off6) (s.reg src))

end Sys2Proof.Machine
end

