-- ==== Sys2Proof/Machine/Trap.lean ====
section
/-! DEFINITION. TRAP and the six built-in routines (spec/45_trap.md), and how a routine that could not end in its step goes
on (R279 of spec/60_exceptions.md, R316 of spec/70_reset_and_hazards.md). TRAP itself writes neither R7 nor the pc nor the
flags (R230; D17, log 21). -/

namespace Sys2Proof.Machine

/-- GETC from its `InRead()` on (R231): the byte, zero-extended, to R0; without a byte the step is held (R279). -/
def State.runGetc (s : State) : State :=
  match s.inRead with
  | some (b, s1) => (s1.setReg .r0 (zext16 b)).setPending none
  | none => s.setPending (some .getc)

/-- IN from its `InRead()` on (R234): echo, flush, R0; without a byte the step is held, the prompt written and not flushed
(R279). -/
def State.runIn (s : State) : State :=
  match s.inRead with
  | some (b, s1) => ((s1.outWrite b).outFlush.setReg .r0 (zext16 b)).setPending none
  | none => s.setPending (some .inn)

/-- The loop of PUTS and PUTSP (R233, R235) from address `a`, for at most `n` words: each word is a `MemRead`, the first word
that reads as zero ends it with a flush, and the address wraps (R69). After `n` words without a zero one the routine is left
unfinished at the address reached. -/
def State.walkString (k : StringKind) : Nat → Word → State → State
  | 0, a, s => s.setPending (some (.string k a))
  | n + 1, a, s =>
    if (s.memRead a).1 = 0x0000#16 then (s.memRead a).2.outFlush.setPending none
    else State.walkString k n (a + 1) ((s.memRead a).2.outWrites (k.bytes (s.memRead a).1))

/-- How many words a string routine reads before the model calls its string endless. No string that ends needs more (R13: its
routine is wholly executed in the one step): each lap of memory polls once and takes at most one item of the input, one lap
with no item left clears the ready bit, and one more lap reads every cell of a memory that no longer changes. DESIGN CHOICE,
log 18. -/
def walkWords (s : State) : Nat := 65536 * (s.input.length + 2)

/-- PUTS or PUTSP from address `a`. -/
def State.runString (k : StringKind) (a : Word) (s : State) : State := State.walkString k (walkWords s) a s

/-- A held or unfinished routine taken up again (R279, R316). -/
def State.resume (r : Routine) (s : State) : State :=
  match r with
  | .getc => s.runGetc
  | .inn => s.runIn
  | .string k a => s.runString k a

/-- GETC, vector 0x20 (R231): no echo, no flush. -/
def execTrapGetc (s : State) : Result := .next s.runGetc

/-- OUT, vector 0x21 (R232). -/
def execTrapOut (s : State) : Result := .next (s.outWrite (lowByte (s.reg .r0))).outFlush

/-- PUTS, vector 0x22 (R233). -/
def execTrapPuts (s : State) : Result := .next (s.runString .puts (s.reg .r0))

/-- IN, vector 0x23 (R234): the prompt, then the read. -/
def execTrapIn (s : State) : Result := .next (s.outWrites s.cfg.inPrompt).runIn

/-- PUTSP, vector 0x24 (R235). -/
def execTrapPutsp (s : State) : Result := .next (s.runString .putsp (s.reg .r0))

/-- HALT, vector 0x25 (R236). -/
def execTrapHalt (s : State) : Result := .next ((s.outWrites s.cfg.haltNotice).outFlush.setRun .halted)

/-- Any other vector (R237): nothing; the vector is not looked at further. Never an error (C2, D22), log 22. -/
def execTrapOther (_vect : BitVec 8) (s : State) : Result := .next s

end Sys2Proof.Machine
end

