-- ==== Sys2Proof/Machine/Dispatch.lean ====
section
/-! DEFINITION. One arm per instruction, each a direct call of its meaning. -/

namespace Sys2Proof.Machine

def exec (i : Instr) (s : State) : Host.Outcome State Fault Refusal :=
  match i with
  | .br n z p off9 => Sys2Proof.Machine.execBr n z p off9 s
  | .addR dst src1 src2 => Sys2Proof.Machine.execAddR dst src1 src2 s
  | .addI dst src1 imm5 => Sys2Proof.Machine.execAddI dst src1 imm5 s
  | .ld dst off9 => Sys2Proof.Machine.execLd dst off9 s
  | .st src off9 => Sys2Proof.Machine.execSt src off9 s
  | .jsrr base => Sys2Proof.Machine.execJsrr base s
  | .jsr off11 => Sys2Proof.Machine.execJsr off11 s
  | .andR dst src1 src2 => Sys2Proof.Machine.execAndR dst src1 src2 s
  | .andI dst src1 imm5 => Sys2Proof.Machine.execAndI dst src1 imm5 s
  | .ldr dst base off6 => Sys2Proof.Machine.execLdr dst base off6 s
  | .str src base off6 => Sys2Proof.Machine.execStr src base off6 s
  | .rti => Sys2Proof.Machine.execRti s
  | .notR dst src => Sys2Proof.Machine.execNot dst src s
  | .ldi dst off9 => Sys2Proof.Machine.execLdi dst off9 s
  | .sti src off9 => Sys2Proof.Machine.execSti src off9 s
  | .jmp base => Sys2Proof.Machine.execJmp base s
  | .ret => Sys2Proof.Machine.execRet s
  | .res => Sys2Proof.Machine.execRes s
  | .lea dst off9 => Sys2Proof.Machine.execLea dst off9 s
  | .trapGetc => Sys2Proof.Machine.execTrapGetc s
  | .trapOut => Sys2Proof.Machine.execTrapOut s
  | .trapPuts => Sys2Proof.Machine.execTrapPuts s
  | .trapIn => Sys2Proof.Machine.execTrapIn s
  | .trapPutsp => Sys2Proof.Machine.execTrapPutsp s
  | .trapHalt => Sys2Proof.Machine.execTrapHalt s
  | .trapOther vect => Sys2Proof.Machine.execTrapOther vect s

end Sys2Proof.Machine
end

