-- ==== Sys2Proof/Machine/Step.lean ====
section
/-! DEFINITION. One step of the machine (R130 of spec/40_step_and_common.md) and the placing of a word where the next step
fetches. -/

namespace Sys2Proof.Machine

/-- One step: while RUNNING, fetch, increment, decode, execute (R130); a step in progress, held or unfinished, is taken up
again before anything is fetched (R279, R316; log 17, 18); no step exists from HALTED or ABORTED (R138; log 20). -/
def step (s : State) : Host.Outcome State Fault Refusal :=
  match s.run with
  | .halted => .fault .noStepHalted
  | .aborted => .fault .noStepAborted
  | .running =>
    match s.pending with
    | some r => .next (State.resume r s)
    | none => exec (decode s.fetch.1) s.fetch.2

/-- `s` with the word `w` where the next step fetches: in the cell at the pc, with `run` RUNNING and no step in progress, as
the fetch needs. At `pc = KBSR_ADDR` the fetch polls the cell first (R132). -/
def State.withFetchWord (s : State) (nbits w : Nat) : State :=
  ((s.memWrite s.pc (BitVec.ofNat 16 (w % 2 ^ nbits))).setRun .running).setPending none

end Sys2Proof.Machine
end

