-- ==== Sys2Proof/Machine/Environment.lean ====
section
/-! DEFINITION. What the environment does to the machine: loading images and booting before the first step (R301, R303 to
R305 of spec/70_reset_and_hazards.md), and extending the input between steps (R12, R14 of spec/00_scope.md). -/

namespace Sys2Proof.Machine

/-- The 16-bit words of an image's bytes, big-endian; a trailing odd byte is ignored (R304; D32, log 25). -/
def imageWords : List Byte → List Word
  | hi :: lo :: rest => (zext16 hi <<< 8 ||| zext16 lo) :: imageWords rest
  | _ => []

/-- Words stored from address `a` up; a word that would land past 0xFFFF is not loaded, the load does not wrap (R304). -/
def Memory.storeFrom : Nat → List Word → Memory → Memory
  | _, [], m => m
  | a, w :: ws, m => if a < 65536 then Memory.storeFrom (a + 1) ws (m.write a w) else m

/-- `load_image` (R304): the first word is the origin, the rest is stored from it up, with no device side effect. None for
fewer than two bytes, a load failure (D32, log 25). -/
def State.loadImage (s : State) (bytes : List Byte) : Option State :=
  match imageWords bytes with
  | [] => none
  | origin :: words => some { s with mem := Memory.storeFrom origin.toNat words s.mem }

/-- Images loaded in order, each over the ones before it (R305); none if one fails. -/
def State.loadImages : List (List Byte) → State → Option State
  | [], s => some s
  | img :: rest, s =>
    match s.loadImage img with
    | some s1 => State.loadImages rest s1
    | none => none

/-- `reset_and_boot` (R301): reset, then at least one image (R303), with the pc at `PC_START` whatever the origins (R305). None
if there is no image or one fails to load: the machine never starts (R303). -/
def boot (c : Config) (images : List (List Byte)) : Option State :=
  match images with
  | [] => none
  | _ => State.loadImages images (State.resetWith c)

/-- The environment extends the input sequence, between steps or while a step is held (R12, R279). -/
def State.supply (s : State) (es : List InEvent) : State := s.setInput (s.input ++ es)

end Sys2Proof.Machine
end

