-- ==== Sys2Proof/Safety.lean ====
section
/-! DEFINITION. What claims are stated in: the invariant of the machine, a safe run, what each instruction may write, and
the frames (what a meaning changes and that it changes nothing else). -/

namespace Sys2Proof.Machine

/-! ### The invariant and safe runs -/

/-- Exactly one flag is set (R27, R30). -/
def oneFlag (c : BitVec 3) : Prop := c = ccP ∨ c = ccZ ∨ c = ccN

/-- What every reachable state satisfies: memory in canonical form, the flags one-hot or still at their reset value (R30), the
parameters as R7 requires them, and no step in progress once the run has ended (R138, R279). -/
structure State.Inv (s : State) : Prop where
  memory : s.mem.wf = true
  flags : oneFlag s.cond ∨ s.cond = s.cfg.condReset
  parameters : s.cfg.ok = true
  progress : s.run ≠ .running → s.pending = none

/-- A run of `k` steps from `s` in which no step faults or is refused. -/
def SafeFor (k : Nat) (s : State) : Prop := ∃ t, Sys2Proof.core.run k s = .next t

/-! ### What an instruction writes -/

/-- The destination of the seven register-defining instructions, after which the flags are recomputed (R28). -/
def definedReg : Instr → Option Reg
  | .addR d _ _ | .addI d _ _ | .andR d _ _ | .andI d _ _ | .notR d _ | .ld d _ | .ldi d _ | .ldr d _ _ | .lea d _ => some d
  | .br .. | .st .. | .jsrr .. | .jsr .. | .str .. | .rti | .sti .. | .jmp .. | .ret | .res | .trapGetc | .trapOut
  | .trapPuts | .trapIn | .trapPutsp | .trapHalt | .trapOther .. => none

/-- The register an instruction writes, if any (the last column of R22). -/
def writtenReg : Instr → Option Reg
  | .addR d _ _ | .addI d _ _ | .andR d _ _ | .andI d _ _ | .notR d _ | .ld d _ | .ldi d _ | .ldr d _ _ | .lea d _ => some d
  | .jsr .. | .jsrr .. => some .r7
  | .trapGetc | .trapIn => some .r0
  | .br .. | .st .. | .str .. | .rti | .sti .. | .jmp .. | .ret | .res | .trapOut | .trapPuts | .trapPutsp | .trapHalt
  | .trapOther .. => none

/-- The instructions that write the pc other than by the increment of the fetch (R26). -/
def writesPc : Instr → Bool
  | .br .. | .jmp .. | .ret | .jsr .. | .jsrr .. => true
  | .addR .. | .addI .. | .andR .. | .andI .. | .notR .. | .ld .. | .ldi .. | .ldr .. | .lea .. | .st .. | .str .. | .sti ..
  | .rti | .res | .trapGetc | .trapOut | .trapPuts | .trapIn | .trapPutsp | .trapHalt | .trapOther .. => false

/-- The address an instruction's explicit `MemWrite` goes to, in the state after the fetch (R57). -/
def storeAddress : Instr → State → Option Word
  | .st _ off9, s => some (s.pc + sext off9)
  | .str _ base off6, s => some (s.reg base + sext off6)
  | .sti _ off9, s => some (s.memRead (s.pc + sext off9)).1
  | .br .., _ | .addR .., _ | .addI .., _ | .andR .., _ | .andI .., _ | .notR .., _ | .ld .., _ | .ldi .., _ | .ldr .., _
  | .lea .., _ | .jsrr .., _ | .jsr .., _ | .jmp .., _ | .ret, _ | .rti, _ | .res, _ | .trapGetc, _ | .trapOut, _
  | .trapPuts, _ | .trapIn, _ | .trapPutsp, _ | .trapHalt, _ | .trapOther .., _ => none

/-- The instructions that read no memory after the fetch and take no input: all but LD, LDI, LDR, STI, GETC, IN, PUTS and
PUTSP (R57, R238). -/
def readsNothing : Instr → Bool
  | .ld .. | .ldi .. | .ldr .. | .sti .. | .trapGetc | .trapIn | .trapPuts | .trapPutsp => false
  | .br .. | .addR .. | .addI .. | .andR .. | .andI .. | .notR .. | .lea .. | .st .. | .str .. | .jsrr .. | .jsr .. | .jmp ..
  | .ret | .rti | .res | .trapOut | .trapHalt | .trapOther .. => true

/-- The run state an instruction leaves a RUNNING machine in (R270). -/
def runAfter : Instr → RunState
  | .trapHalt => .halted
  | .rti | .res => .aborted
  | .br .. | .addR .. | .addI .. | .andR .. | .andI .. | .notR .. | .ld .. | .ldi .. | .ldr .. | .lea .. | .st .. | .str ..
  | .sti .. | .jsrr .. | .jsr .. | .jmp .. | .ret | .trapGetc | .trapOut | .trapPuts | .trapIn | .trapPutsp
  | .trapOther .. => .running

/-! ### What is read -/

/-- `n` reads `MemRead` at `a`, `a + 1`, ... in order: the words read, and the state after the last (R57). -/
def readWords : Nat → Word → State → List Word × State
  | 0, _, s => ([], s)
  | n + 1, a, s =>
    let r := s.memRead a
    let q := readWords n (a + 1) r.2
    (r.1 :: q.1, q.2)

/-- The string walk that starts at `a` reads the address `x`: some words before it, all non-zero, and then `x` (R57, the row of
PUTS and PUTSP). -/
def stringReads (a : Word) (s : State) (x : Word) : Prop :=
  ∃ m, (∀ w ∈ (readWords m a s).1, w ≠ 0#16) ∧ x = a + BitVec.ofNat 16 m

/-- The addresses an instruction reads by `MemRead` after its fetch, in the state after the fetch (the table of R57). -/
def readsAt : Instr → State → Word → Prop
  | .ld _ off9, s, x => x = s.pc + sext off9
  | .ldr _ base off6, s, x => x = s.reg base + sext off6
  | .ldi _ off9, s, x => x = s.pc + sext off9 ∨ x = (s.memRead (s.pc + sext off9)).1
  | .sti _ off9, s, x => x = s.pc + sext off9
  | .trapPuts, s, x | .trapPutsp, s, x => stringReads (s.reg .r0) s x
  | .br .., _, _ | .addR .., _, _ | .addI .., _, _ | .andR .., _, _ | .andI .., _, _ | .notR .., _, _ | .lea .., _, _
  | .st .., _, _ | .str .., _, _ | .jsrr .., _, _ | .jsr .., _, _ | .jmp .., _, _ | .ret, _, _ | .rti, _, _ | .res, _, _
  | .trapGetc, _, _ | .trapOut, _, _ | .trapIn, _, _ | .trapHalt, _, _ | .trapOther .., _, _ => False

/-- The addresses a step reads by `MemRead`: the fetch and the instruction's own reads (R57), or those of the routine it takes
up again (log 17, 18). -/
def stepReadsAt (s : State) (x : Word) : Prop :=
  match s.pending with
  | none => x = s.pc ∨ readsAt (decode s.fetch.1) s.fetch.2 x
  | some (.string _ a) => stringReads a s x
  | some .getc | some .inn => False

/-! ### Frames -/

/-- The registers, the pc and the flags are as before. -/
structure SameCore (s t : State) : Prop where
  regs : ∀ r, t.reg r = s.reg r
  pc : t.pc = s.pc
  cond : t.cond = s.cond

/-- The run state, the routine in progress, the abort reports and the parameters are as before. -/
structure SameMode (s t : State) : Prop where
  run : t.run = s.run
  pending : t.pending = s.pending
  reports : t.reports = s.reports
  cfg : t.cfg = s.cfg

/-- Everything but the registers, the pc, the flags and memory is as before. -/
structure SameRest (s t : State) : Prop where
  mode : SameMode s t
  input : t.input = s.input
  output : t.output = s.output

/-- `t` is `s` with the destination holding `v` and the flags set from it, and nothing else changed. -/
structure DefinesOnly (s t : State) (dst : Reg) (v : Word) : Prop where
  value : t.reg dst = v
  flags : t.cond = ccOf v
  otherRegs : ∀ r, r ≠ dst → t.reg r = s.reg r
  pc : t.pc = s.pc
  cells : ∀ a, t.peek a = s.peek a
  rest : SameRest s t

/-- `t` is `s` after a load whose memory reads gave the word `r.1` and left the cells and the input as in `r.2`. -/
structure LoadsOnly (s t : State) (dst : Reg) (r : Word × State) : Prop where
  value : t.reg dst = r.1
  flags : t.cond = ccOf r.1
  otherRegs : ∀ u, u ≠ dst → t.reg u = s.reg u
  pc : t.pc = s.pc
  cells : ∀ a, t.peek a = r.2.peek a
  input : t.input = r.2.input
  output : t.output = s.output
  mode : SameMode s t

/-- `t` is `s` with the cell at `a` holding `v`, and nothing else changed. -/
structure StoresOnly (s t : State) (a v : Word) : Prop where
  stored : t.peek a = v
  otherCells : ∀ b, b ≠ a → t.peek b = s.peek b
  same : SameCore s t
  rest : SameRest s t

/-- `t` is `s` with another pc, and nothing else changed. -/
structure JumpsOnly (s t : State) (target : Word) : Prop where
  pc : t.pc = target
  regs : ∀ r, t.reg r = s.reg r
  cond : t.cond = s.cond
  cells : ∀ a, t.peek a = s.peek a
  rest : SameRest s t

/-- `t` is `s` with the return address in R7 and another pc, and nothing else changed. -/
structure CallsOnly (s t : State) (link target : Word) : Prop where
  link : t.reg .r7 = link
  pc : t.pc = target
  otherRegs : ∀ r, r ≠ .r7 → t.reg r = s.reg r
  cond : t.cond = s.cond
  cells : ∀ a, t.peek a = s.peek a
  rest : SameRest s t

/-- `t` is `s` after a read routine took the byte `b` and left `left` of the input, with `out` appended to the output. -/
structure TakesByte (s t : State) (b : Byte) (left : List InEvent) (out : List OutEvent) : Prop where
  value : t.reg .r0 = b.setWidth 16
  otherRegs : ∀ r, r ≠ .r0 → t.reg r = s.reg r
  pc : t.pc = s.pc
  cond : t.cond = s.cond
  cells : ∀ a, t.peek a = s.peek a
  input : t.input = left
  output : t.output = s.output ++ out
  done : t.pending = none
  run : t.run = s.run
  reports : t.reports = s.reports
  cfg : t.cfg = s.cfg

/-- `t` is `s` held inside the routine `r`, with `out` appended to the output, and nothing else changed. -/
structure HeldIn (s t : State) (r : Routine) (out : List OutEvent) : Prop where
  pending : t.pending = some r
  same : SameCore s t
  cells : ∀ a, t.peek a = s.peek a
  input : t.input = s.input
  output : t.output = s.output ++ out
  run : t.run = s.run
  reports : t.reports = s.reports
  cfg : t.cfg = s.cfg

/-- `t` is `s` after a string routine whose memory reads left the cells and the input as in `u`: `out` appended to the
output, the routine in progress `p`, and nothing else changed. -/
structure WritesString (s u t : State) (out : List OutEvent) (p : Option Routine) : Prop where
  output : t.output = s.output ++ out
  pending : t.pending = p
  same : SameCore s t
  cells : ∀ a, t.peek a = u.peek a
  input : t.input = u.input
  run : t.run = s.run
  reports : t.reports = s.reports
  cfg : t.cfg = s.cfg

/-- The bytes of a sequence of words in an image file, big-endian (R304). -/
def bigEndian (ws : List Word) : List Byte := ws.flatMap fun w => [w.extractLsb' 8 8, w.extractLsb' 0 8]

end Sys2Proof.Machine
end

