-- ==== Sys2Proof/Certificates/Slice0/Obligations.lean ====
section
/-! DEFINITION. The statements for the provers. Each docstring names the rule of spec/ it formalises; where a clause rests on
a value or a behaviour the spec marks as its own decision, it says so and names the log entry. The frames (`DefinesOnly`,
`LoadsOnly`, ...) are spelled out in Sys2Proof/Safety.lean. -/

open Sys2Proof Sys2Proof.Machine

/-! ## Encoding -/

/-- Decoding an encoded well-formed instruction gives it back, every operand at every value (R92, R94, R98). The opcode
numbers, field positions and trap vectors on both sides are the spec's D3, D4, D16 (log 11, 12). -/
def Obligations.DecodeInvertsEncode : Prop :=
  ∀ i : Instr, wellFormed i = true → decode (encode i) = i

/-- Every word decodes to a well-formed instruction (R96, R98: decoding is total), and the instruction's own word agrees with
it on every bit that is not ignored (R110): decoding loses no significant bit. -/
def Obligations.DecodeLosesNoSignificantBit : Prop :=
  ∀ w : Word, wellFormed (decode w) = true ∧
    encode (decode w) &&& significantBits (decode w) = w &&& significantBits (decode w)

/-- Words that differ only in ignored bits are the same instruction (R110; D26, log 13). -/
def Obligations.IgnoredBitsDoNotMatter : Prop :=
  ∀ w w' : Word, w' &&& significantBits (decode w) = w &&& significantBits (decode w) → decode w' = decode w

/-- Words written out bit by bit from the spec's encodings (R92, R96, R97 and the worked words of R93) decode to the
instruction they stand for. -/
def Obligations.WordsOfTheSpecDecode : Prop :=
  decode 0b0001000001100010#16 = .addI .r0 .r1 2 ∧
  decode 0b0101000001100001#16 = .andI .r0 .r1 1 ∧
  decode 0b0001010000000001#16 = .addR .r2 .r0 .r1 ∧
  decode 0b1001000000111111#16 = .notR .r0 .r0 ∧
  decode 0b0000001111111101#16 = .br false false true 0x1FD ∧
  decode 0b0100100000000010#16 = .jsr 2 ∧
  decode 0b0100000011000000#16 = .jsrr .r3 ∧
  decode 0b1100000010000000#16 = .jmp .r2 ∧
  decode 0b1100000111000000#16 = .ret ∧
  decode 0b1010000000000100#16 = .ldi .r0 4 ∧
  decode 0b0110010110111111#16 = .ldr .r2 .r6 0x3F ∧
  decode 0b0111000110000001#16 = .str .r0 .r6 1 ∧
  decode 0b1111000000100101#16 = .trapHalt ∧
  decode 0b1111000000100110#16 = .trapOther 0x26 ∧
  decode 0b1000111111111111#16 = .rti ∧
  decode 0b1101101010111100#16 = .res

/-! ## Sign extension and flags -/

/-- R133, for the four widths: a field whose top bit is 1 gets ones in every higher bit, any other is returned
unchanged. -/
def Obligations.SignExtensionCopiesTheTopBit : Prop :=
  (∀ f : BitVec 5, sext f = if f.getLsbD 4 then f.setWidth 16 ||| (0xFFFF#16 <<< 5) else f.setWidth 16) ∧
  (∀ f : BitVec 6, sext f = if f.getLsbD 5 then f.setWidth 16 ||| (0xFFFF#16 <<< 6) else f.setWidth 16) ∧
  (∀ f : BitVec 9, sext f = if f.getLsbD 8 then f.setWidth 16 ||| (0xFFFF#16 <<< 9) else f.setWidth 16) ∧
  (∀ f : BitVec 11, sext f = if f.getLsbD 10 then f.setWidth 16 ||| (0xFFFF#16 <<< 11) else f.setWidth 16)

/-- R134, for every width from 1 to 16: cutting the extended value back is the identity, a field with top bit 0 extends as
zero extension, and as a signed number the value is `f` below `2^(N-1)` and `f - 2^N` from there up. -/
def Obligations.SignExtensionLaws : Prop :=
  ∀ (n : Nat) (f : BitVec n), 1 ≤ n → n ≤ 16 →
    (sext f).setWidth n = f ∧
    (f.getLsbD (n - 1) = false → sext f = f.setWidth 16) ∧
    (sext f).toInt = if f.toNat < 2 ^ (n - 1) then (f.toNat : Int) else (f.toNat : Int) - (2 ^ n : Nat)

/-- R135: the flags of a value by its sign, ZERO if it is 0, NEGATIVE if its bit 15 is 1 (the same as: its signed value is
below 0), otherwise POSITIVE; exactly one flag, whatever the old flags; nothing else of the state changes. The three flag
values are named, not numbered: their bit values are the spec's D9 (log 10). -/
def Obligations.SetCCFollowsTheSign : Prop :=
  ∀ (s : State) (v : Word),
    (v = 0 → (s.setCC v).cond = ccZ) ∧
    (v.getLsbD 15 = true → (s.setCC v).cond = ccN) ∧
    (v ≠ 0 → v.getLsbD 15 = false → (s.setCC v).cond = ccP) ∧
    (v.toInt < 0 ↔ (s.setCC v).cond = ccN) ∧ (v.toInt = 0 ↔ (s.setCC v).cond = ccZ) ∧
    (0 < v.toInt ↔ (s.setCC v).cond = ccP) ∧
    (s.setCC v).cond = ccOf v ∧
    (∀ r, (s.setCC v).reg r = s.reg r) ∧ (s.setCC v).pc = s.pc ∧ (∀ a, (s.setCC v).peek a = s.peek a) ∧
    SameRest s (s.setCC v)

/-! ## Memory and the keyboard cells -/

/-- R51: `MemRead` returns the content of the cell after the device update; at any address but `KBSR_ADDR` there is none; at
`KBSR_ADDR`, if `InAvail()` answers true the status cell becomes `KBSR_READY` and the byte `InRead()` takes is written,
zero-extended, to the data cell (last, as the rule orders the two), and if it answers false the ready bit of the status cell
is cleared and its other bits are kept. No other cell and nothing else of the machine changes. The zero-extended latch and the
clearing of the ready bit only are the spec's D13 and D12, as R53 marks them (log 23); that a true answer stands in the input as
a byte in front is the model's input form (log 15). -/
def Obligations.MemReadPollsTheStatusCellOnly : Prop :=
  ∀ (s : State) (a : Word), s.mem.wf = true →
    (s.memRead a).1 = (s.memRead a).2.peek a ∧
    SameCore s (s.memRead a).2 ∧ SameMode s (s.memRead a).2 ∧ (s.memRead a).2.output = s.output ∧
    (a ≠ s.cfg.kbsrAddr → (s.memRead a).2 = s) ∧
    (a = s.cfg.kbsrAddr → s.inAvail.1 = true →
      ∃ b rest, s.input = .byte b :: rest ∧ (s.memRead a).2.input = rest ∧
        ∀ c, (s.memRead a).2.peek c =
          if c = s.cfg.kbdrAddr then b.setWidth 16 else if c = s.cfg.kbsrAddr then s.cfg.kbsrReady else s.peek c) ∧
    (a = s.cfg.kbsrAddr → s.inAvail.1 = false →
      (s.memRead a).2.input = s.inAvail.2.input ∧
        ∀ c, (s.memRead a).2.peek c = if c = s.cfg.kbsrAddr then s.peek c &&& ~~~ s.cfg.kbsrReady else s.peek c)

/-- The one law of R12 on the answer of `InAvail()` (D25, log 15): if it is true, an `InRead()` in the same step takes a byte;
and the answer is the environment's: before any byte that is to come it may answer no. -/
def Obligations.AvailableInputCanBeRead : Prop :=
  (∀ s : State, s.inAvail.1 = true → ∃ b t, s.inAvail.2.inRead = some (b, t)) ∧
  (∀ (s : State) (b : Byte) (rest : List InEvent),
    (s.setInput (.byte b :: rest)).inAvail.1 = true ∧
    (s.setInput (.quiet :: .byte b :: rest)).inAvail.1 = false ∧
    (s.setInput (.quiet :: .byte b :: rest)).inAvail.2.input = .byte b :: rest)

/-- A write is read back at its own address and changes no other cell and nothing else, the keyboard cells included (R52;
D13, log 23). -/
def Obligations.MemWriteStoresOneCell : Prop :=
  ∀ (s : State) (a v : Word), s.mem.wf = true → StoresOnly s (s.memWrite a v) a v ∧ (s.memWrite a v).mem.wf = true

/-- Memories in canonical form that read alike at all 65536 addresses (R34) are the same data. -/
def Obligations.EqualReadsMeanEqualMemory : Prop :=
  ∀ m m' : Memory, m.wf = true → m'.wf = true → (∀ a : Word, m.read a.toNat = m'.read a.toNat) → m = m'

/-- Two status reads with no data read between lose a character (R311, from R53 and R55): with two bytes available, the data
cell holds the second and both are gone. -/
def Obligations.TwoPollsLoseACharacter : Prop :=
  ∀ (s : State) (b c : Byte) (rest : List InEvent), s.mem.wf = true → s.input = .byte b :: .byte c :: rest →
    let t := ((s.memRead s.cfg.kbsrAddr).2.memRead s.cfg.kbsrAddr).2
    t.peek s.cfg.kbdrAddr = c.setWidth 16 ∧ t.input = rest

/-- GETC and the poll draw on one input (R315, from R12): after a poll took the first byte GETC gets the second, and the data
cell still holds the first, zero-extended by the poll (R51, R53; the spec's D13, log 23); GETC's own zero extension is the
spec's D18 (log 21), and the input's form the model's (log 15). -/
def Obligations.GetcDoesNotSeeALatchedByte : Prop :=
  ∀ (s : State) (b c : Byte) (rest : List InEvent), s.mem.wf = true → s.input = .byte b :: .byte c :: rest →
    ∃ t, exec .trapGetc (s.memRead s.cfg.kbsrAddr).2 = .next t ∧
      t.reg .r0 = c.setWidth 16 ∧ t.peek s.cfg.kbdrAddr = b.setWidth 16 ∧ t.input = rest

/-! ## Reset and images -/

/-- What reset leaves (R38, R301): every register, flag and cell at its parameter, RUNNING, no step in progress, empty
histories; with the defaults, zero registers, flags and memory and the pc at 0x3000. The defaults and RUNNING are the spec's
D5 to D8 and D35 (log 2 to 6), the empty input is the model's (log 16). -/
def Obligations.ResetLeavesTheParameters : Prop :=
  (∀ c : Config, (∀ r, (State.resetWith c).reg r = c.gprReset) ∧ (State.resetWith c).pc = c.pcStart ∧
    (State.resetWith c).cond = c.condReset ∧ (∀ a, (State.resetWith c).peek a = c.memReset) ∧
    (State.resetWith c).run = .running ∧ (State.resetWith c).pending = none ∧ (State.resetWith c).output = [] ∧
    (State.resetWith c).reports = [] ∧ (State.resetWith c).cfg = c) ∧
  (∀ r, State.reset.reg r = 0) ∧ State.reset.pc = 0x3000#16 ∧ State.reset.cond = 0b000#3 ∧ (∀ a, State.reset.peek a = 0) ∧
  State.reset.run = .running ∧ State.reset.input = [] ∧ State.reset.output = []

/-- `load_image` (R304) on the big-endian bytes of an origin and words: each word lies at its address, the load does not
wrap, every other cell and everything else is as before. -/
def Obligations.ImageLoadsAtItsOrigin : Prop :=
  ∀ (s : State) (origin : Word) (ws : List Word), s.mem.wf = true →
    ∃ t, s.loadImage (bigEndian (origin :: ws)) = some t ∧
      (∀ (k : Nat) (hk : k < ws.length), origin.toNat + k < 65536 → t.peek (origin + BitVec.ofNat 16 k) = ws[k]) ∧
      (∀ a : Word, a.toNat < origin.toNat ∨ origin.toNat + ws.length ≤ a.toNat → t.peek a = s.peek a) ∧
      SameCore s t ∧ SameRest s t

/-- A booted machine starts at `PC_START` whatever the images' origins, RUNNING, its registers and flags at their reset
values (R301, R305); booting needs at least one image (R303). -/
def Obligations.BootStartsAtPcStart : Prop :=
  (∀ (c : Config) (images : List (List Byte)) (s : State), boot c images = some s →
    s.pc = c.pcStart ∧ s.run = .running ∧ (∀ r, s.reg r = c.gprReset) ∧ s.cond = c.condReset ∧ s.pending = none ∧
    s.cfg = c) ∧
  (∀ c : Config, boot c [] = none)

/-! ## Operate instructions -/

/-- ADD, both modes (R150, R151): `dst` gets `src1` plus `src2` or the sign-extended immediate, modulo 2^16, the flags are set
from it, and nothing else changes; `dst` may be a source. -/
def Obligations.AddDefinesTheSum : Prop :=
  (∀ (dst src1 src2 : Reg) (s : State),
    ∃ t, exec (.addR dst src1 src2) s = .next t ∧ DefinesOnly s t dst (s.reg src1 + s.reg src2)) ∧
  (∀ (dst src1 : Reg) (imm5 : BitVec 5) (s : State),
    ∃ t, exec (.addI dst src1 imm5) s = .next t ∧ DefinesOnly s t dst (s.reg src1 + sext imm5))

/-- AND, both modes (R152, R153). -/
def Obligations.AndDefinesTheConjunction : Prop :=
  (∀ (dst src1 src2 : Reg) (s : State),
    ∃ t, exec (.andR dst src1 src2) s = .next t ∧ DefinesOnly s t dst (s.reg src1 &&& s.reg src2)) ∧
  (∀ (dst src1 : Reg) (imm5 : BitVec 5) (s : State),
    ∃ t, exec (.andI dst src1 imm5) s = .next t ∧ DefinesOnly s t dst (s.reg src1 &&& sext imm5))

/-- NOT (R154): every one of the 16 bits inverted, the flags set from the result, nothing else. -/
def Obligations.NotDefinesTheComplement : Prop :=
  ∀ (dst src : Reg) (s : State), ∃ t, exec (.notR dst src) s = .next t ∧ DefinesOnly s t dst (~~~ s.reg src)

/-- R155: ADD leaves the low 16 bits of the mathematical sum, the same bits whether the operands are read as unsigned or as
two's complement; AND and NOT act bit by bit on all 16 bits; the flags are set from the 16-bit result only; and no operands
make any of them stop. -/
def Obligations.AluResultsAreSixteenBits : Prop :=
  (∀ (d a b : Reg) (s : State), ∃ t, exec (.addR d a b) s = .next t ∧
    (t.reg d).toNat = ((s.reg a).toNat + (s.reg b).toNat) % 65536 ∧
    t.reg d = BitVec.ofInt 16 ((s.reg a).toInt + (s.reg b).toInt) ∧ t.cond = ccOf (t.reg d)) ∧
  (∀ (d a : Reg) (i : BitVec 5) (s : State), ∃ t, exec (.addI d a i) s = .next t ∧
    (t.reg d).toNat = ((s.reg a).toNat + (sext i).toNat) % 65536 ∧
    t.reg d = BitVec.ofInt 16 ((s.reg a).toInt + (sext i).toInt) ∧ t.cond = ccOf (t.reg d)) ∧
  (∀ (d a b : Reg) (s : State), ∃ t, exec (.andR d a b) s = .next t ∧
    (∀ k : Nat, (t.reg d).getLsbD k = ((s.reg a).getLsbD k && (s.reg b).getLsbD k)) ∧ t.cond = ccOf (t.reg d)) ∧
  (∀ (d a : Reg) (i : BitVec 5) (s : State), ∃ t, exec (.andI d a i) s = .next t ∧
    (∀ k : Nat, (t.reg d).getLsbD k = ((s.reg a).getLsbD k && (sext i).getLsbD k)) ∧ t.cond = ccOf (t.reg d)) ∧
  (∀ (d a : Reg) (s : State), ∃ t, exec (.notR d a) s = .next t ∧
    (∀ k : Nat, k < 16 → (t.reg d).getLsbD k = !(s.reg a).getLsbD k) ∧ t.cond = ccOf (t.reg d))

/-- R156: immediate and register mode agree when the register holds the sign-extended immediate. -/
def Obligations.ImmediateAndRegisterModeAgree : Prop :=
  ∀ (d a b : Reg) (i : BitVec 5) (s : State), s.reg b = sext i →
    ∃ t u, exec (.addR d a b) s = .next t ∧ exec (.addI d a i) s = .next t ∧
      exec (.andR d a b) s = .next u ∧ exec (.andI d a i) s = .next u

/-! ## Control transfer -/

/-- BR (R170): taken exactly when a flag the mask names is set; the target is the incremented pc plus the sign-extended
offset; nothing but the pc changes. That bit 2, 1, 0 of the flags are N, Z, P is the spec's D9 (log 10). -/
def Obligations.BrJumpsOnANamedFlag : Prop :=
  ∀ (n z p : Bool) (off9 : BitVec 9) (s : State), ∃ t, exec (.br n z p off9) s = .next t ∧
    JumpsOnly s t
      (if (n && s.cond.getLsbD 2) || (z && s.cond.getLsbD 1) || (p && s.cond.getLsbD 0) then s.pc + sext off9 else s.pc)

/-- BR with mask 000, and BR with any mask while no flag is set (R112, R312), change nothing at all; BR with mask 111 is taken
whenever exactly one flag is set (R170). -/
def Obligations.BrWithNoFlagNamedOrSetFallsThrough : Prop :=
  (∀ (off9 : BitVec 9) (s : State), exec (.br false false false off9) s = .next s) ∧
  (∀ (n z p : Bool) (off9 : BitVec 9) (s : State), s.cond = 0b000#3 → exec (.br n z p off9) s = .next s) ∧
  (∀ (off9 : BitVec 9) (s : State), oneFlag s.cond → exec (.br true true true off9) s = .next (s.setPc (s.pc + sext off9)))

/-- JMP (R171), RET being the one through R7 (R114): the whole register is the target, and nothing but the pc changes. -/
def Obligations.JmpGoesToTheBase : Prop :=
  (∀ (base : Reg) (s : State), ∃ t, exec (.jmp base) s = .next t ∧ JumpsOnly s t (s.reg base)) ∧
  (∀ s : State, ∃ t, exec .ret s = .next t ∧ JumpsOnly s t (s.reg .r7))

/-- JSR (R172): R7 gets the incremented pc, and the target is that pc plus the sign-extended offset; the flags and everything
else are unchanged. -/
def Obligations.JsrLinksAndJumps : Prop :=
  ∀ (off11 : BitVec 11) (s : State), ∃ t, exec (.jsr off11) s = .next t ∧ CallsOnly s t s.pc (s.pc + sext off11)

/-- JSRR (R173, R318): R7 is written before the base is read, so through R7 the target is the return address; through any other
register it is that register. -/
def Obligations.JsrrLinksBeforeItReadsTheBase : Prop :=
  ∀ (base : Reg) (s : State), ∃ t, exec (.jsrr base) s = .next t ∧
    CallsOnly s t s.pc (if base = .r7 then s.pc else s.reg base)

/-! ## Loads and stores -/

/-- LD and LDR (R190, R192): one `MemRead` at the effective address, its word to `dst`, the flags from it; an address that is
not `KBSR_ADDR` gives the cell's content and changes no cell and no input. -/
def Obligations.LdAndLdrLoadTheCell : Prop :=
  (∀ (dst : Reg) (off9 : BitVec 9) (s : State), ∃ t, exec (.ld dst off9) s = .next t ∧
    LoadsOnly s t dst (s.memRead (s.pc + sext off9)) ∧
    (s.pc + sext off9 ≠ s.cfg.kbsrAddr → DefinesOnly s t dst (s.peek (s.pc + sext off9)))) ∧
  (∀ (dst base : Reg) (off6 : BitVec 6) (s : State), ∃ t, exec (.ldr dst base off6) s = .next t ∧
    LoadsOnly s t dst (s.memRead (s.reg base + sext off6)) ∧
    (s.reg base + sext off6 ≠ s.cfg.kbsrAddr → DefinesOnly s t dst (s.peek (s.reg base + sext off6))))

/-- LDI (R191): the pointer is read first, then the word it points at, each a `MemRead`; away from `KBSR_ADDR` that is
`M[M[pc + offset]]`. -/
def Obligations.LdiLoadsThroughThePointer : Prop :=
  ∀ (dst : Reg) (off9 : BitVec 9) (s : State), ∃ t, exec (.ldi dst off9) s = .next t ∧
    LoadsOnly s t dst ((s.memRead (s.pc + sext off9)).2.memRead (s.memRead (s.pc + sext off9)).1) ∧
    (s.pc + sext off9 ≠ s.cfg.kbsrAddr → s.peek (s.pc + sext off9) ≠ s.cfg.kbsrAddr →
      DefinesOnly s t dst (s.peek (s.peek (s.pc + sext off9))))

/-- LEA (R193): the address itself, no memory access even at `KBSR_ADDR`, the flags set from it. -/
def Obligations.LeaDefinesTheAddress : Prop :=
  ∀ (dst : Reg) (off9 : BitVec 9) (s : State), ∃ t, exec (.lea dst off9) s = .next t ∧
    DefinesOnly s t dst (s.pc + sext off9)

/-- ST and STR (R210, R212): the whole source register to the cell at the effective address, and nothing else changes: no
flag, no register, no poll. -/
def Obligations.StAndStrStoreOneCell : Prop :=
  (∀ (src : Reg) (off9 : BitVec 9) (s : State), s.mem.wf = true → ∃ t, exec (.st src off9) s = .next t ∧
    StoresOnly s t (s.pc + sext off9) (s.reg src)) ∧
  (∀ (src base : Reg) (off6 : BitVec 6) (s : State), s.mem.wf = true → ∃ t, exec (.str src base off6) s = .next t ∧
    StoresOnly s t (s.reg base + sext off6) (s.reg src))

/-- STI (R211): the pointer is read with its device effect, then the source is stored where it points; away from `KBSR_ADDR`
that is `M[M[pc + offset]]` and nothing else. -/
def Obligations.StiStoresThroughThePointer : Prop :=
  ∀ (src : Reg) (off9 : BitVec 9) (s : State), s.mem.wf = true → ∃ t, exec (.sti src off9) s = .next t ∧
    StoresOnly (s.memRead (s.pc + sext off9)).2 t (s.memRead (s.pc + sext off9)).1 (s.reg src) ∧
    SameCore s t ∧ SameMode s t ∧ t.output = s.output ∧
    (s.pc + sext off9 ≠ s.cfg.kbsrAddr → StoresOnly s t (s.peek (s.pc + sext off9)) (s.reg src))

/-! ## TRAP -/

/-- GETC (R231) with a byte to come: R0 gets it zero-extended, the input has lost it, and nothing else changes: no echo, no
flush, no flag. Zero extension is the spec's D18, the flags D17 (log 21). -/
def Obligations.GetcReadsOneByte : Prop :=
  ∀ (s : State) (b : Byte) (rest : List InEvent), takeByte s.input = some (b, rest) →
    ∃ t, exec .trapGetc s = .next t ∧ TakesByte s t b rest []

/-- IN (R234) with a byte to come: the prompt, the echo and one flush are written in that order, and R0 gets the byte. The
order is the spec's D20, the prompt any byte string (log 8, 26). -/
def Obligations.InPromptsReadsAndEchoes : Prop :=
  ∀ (s : State) (b : Byte) (rest : List InEvent), takeByte s.input = some (b, rest) →
    ∃ t, exec .trapIn s = .next t ∧ TakesByte s t b rest (s.cfg.inPrompt.map .byte ++ [.byte b, .flush])

/-- GETC and IN with no byte to come (R279): the step is held, IN with its prompt written and not flushed, and nothing else
has changed; `run` stays what it was. How a held step is shown is the model's (log 17). -/
def Obligations.ReadsWithoutInputAreHeld : Prop :=
  ∀ s : State, takeByte s.input = none →
    (∃ t, exec .trapGetc s = .next t ∧ HeldIn s t .getc []) ∧
    (∃ t, exec .trapIn s = .next t ∧ HeldIn s t .inn (s.cfg.inPrompt.map .byte))

/-- A held step stays as it is while no byte comes, and completes, as the read would have, in the step after the environment
supplies one (R279: the environment extending the input lifts a hold, and nothing else; log 17). -/
def Obligations.SuppliedInputLiftsAHold : Prop :=
  ∀ (s : State) (b : Byte) (rest : List InEvent), s.run = .running → takeByte s.input = none →
    (s.pending = some .getc → step s = .next s ∧
      ∃ t, step (s.supply (.byte b :: rest)) = .next t ∧ TakesByte s t b rest []) ∧
    (s.pending = some .inn → step s = .next s ∧
      ∃ t, step (s.supply (.byte b :: rest)) = .next t ∧ TakesByte s t b rest [.byte b, .flush])

/-- OUT (R232): the low byte of R0 and a flush mark are written, and nothing else changes. -/
def Obligations.OutWritesTheLowByte : Prop :=
  ∀ s : State, ∃ t, exec .trapOut s = .next t ∧
    WritesString s s t [.byte ((s.reg .r0).setWidth 8), .flush] s.pending

/-- PUTS and PUTSP (R233, R235) on any string that ends, on whichever lap of memory, keyboard reads included: with the words
read, in order from `x[0]`, being the non-zero `ws` and then a zero, PUTS writes the low byte of each, PUTSP the low byte and
then the high byte if it is not zero, then one flush, all of it in the one step (R13, R238); R0 and everything else keep their
values, but for what the reads themselves do to the keyboard cells and the input. The low byte of a PUTS word is the spec's D19,
the reads' polls D15 (log 21, 23). -/
def Obligations.StringRoutinesWriteUpToTheFirstZeroWord : Prop :=
  ∀ (s u : State) (ws : List Word), s.mem.wf = true → (∀ w ∈ ws, w ≠ 0#16) →
    readWords (ws.length + 1) (s.reg .r0) s = (ws ++ [0#16], u) →
    (∃ t, exec .trapPuts s = .next t ∧
      WritesString s u t (ws.map (fun w => .byte (w.setWidth 8)) ++ [.flush]) none) ∧
    (∃ t, exec .trapPutsp s = .next t ∧
      WritesString s u t
        (ws.flatMap (fun w => .byte (w.setWidth 8) ::
          (if w.extractLsb' 8 8 = 0 then [] else [.byte (w.extractLsb' 8 8)])) ++ [.flush]) none)

/-- The same of a string in ordinary memory (R233): if the cells `x[0]`, `x[0] + 1`, ... are not zero and none is `KBSR_ADDR`
up to the first zero cell, at distance `n`, PUTS writes exactly the low bytes of the first `n` cells and a flush, and no cell
and no input changes. -/
def Obligations.PutsPrintsAStringInMemory : Prop :=
  ∀ (s : State) (n : Nat), n < 65536 →
    (∀ k, k < n → s.peek (s.reg .r0 + BitVec.ofNat 16 k) ≠ 0#16) → s.peek (s.reg .r0 + BitVec.ofNat 16 n) = 0#16 →
    (∀ k, k ≤ n → s.reg .r0 + BitVec.ofNat 16 k ≠ s.cfg.kbsrAddr) →
    ∃ t, exec .trapPuts s = .next t ∧
      WritesString s s t
        ((List.range n).map (fun k => .byte ((s.peek (s.reg .r0 + BitVec.ofNat 16 k)).setWidth 8)) ++ [.flush]) none

/-- One pass over a string that has no zero word in the words the model reads in one step (R233, R316): every word is written,
nothing is flushed, and the routine is taken up again, from `x[0]`, where the walk has come round to, by the next step. That the
endless step is shown as passes is the model's (log 18). -/
def Obligations.AStringWithNoZeroWordGoesOn : Prop :=
  ∀ (s u : State) (ws : List Word), (∀ w ∈ ws, w ≠ 0#16) → readWords (walkWords s) (s.reg .r0) s = (ws, u) →
    (∃ t, exec .trapPuts s = .next t ∧
      WritesString s u t (ws.map (fun w => .byte (w.setWidth 8))) (some (.string .puts (s.reg .r0))) ∧
      (s.run = .running → step t = exec .trapPuts t)) ∧
    (∃ t, exec .trapPutsp s = .next t ∧
      WritesString s u t
        (ws.flatMap (fun w => .byte (w.setWidth 8) ::
          (if w.extractLsb' 8 8 = 0 then [] else [.byte (w.extractLsb' 8 8)])))
        (some (.string .putsp (s.reg .r0))) ∧
      (s.run = .running → step t = exec .trapPutsp t))

/-- A string with no zero word is written for ever (R233, R316; D34): if no cell is zero, no byte comes and the ready bit of the
status cell is clear, then after the call and any number `n` of further steps the routine is still in progress, and what it has
written is the words from `x[0]` on, in order and round and round, at least `n + 1` laps of memory, with no flush; nothing else
has changed but that the quiet marks of the input are used up. That the endless step is shown as steps is the model's (log 18),
the quiet marks too (log 15). -/
def Obligations.AnEndlessStringIsWrittenForEver : Prop :=
  ∀ (s : State) (n : Nat), s.mem.wf = true → s.run = .running → (∀ a, s.peek a ≠ 0#16) → takeByte s.input = none →
    s.peek s.cfg.kbsrAddr &&& s.cfg.kbsrReady = 0#16 →
    (∃ (t u : State) (m : Nat), exec .trapPuts s = .next t ∧ Sys2Proof.core.run n t = .next u ∧ 65536 * (n + 1) ≤ m ∧
      WritesString s (s.setInput []) u
        ((List.range m).map (fun k => .byte ((s.peek (s.reg .r0 + BitVec.ofNat 16 k)).setWidth 8)))
        (some (.string .puts (s.reg .r0)))) ∧
    (∃ (t u : State) (m : Nat), exec .trapPutsp s = .next t ∧ Sys2Proof.core.run n t = .next u ∧ 65536 * (n + 1) ≤ m ∧
      WritesString s (s.setInput []) u
        (((List.range m).map (fun k => s.peek (s.reg .r0 + BitVec.ofNat 16 k))).flatMap (fun w => .byte (w.setWidth 8) ::
          (if w.extractLsb' 8 8 = 0 then [] else [.byte (w.extractLsb' 8 8)])))
        (some (.string .putsp (s.reg .r0))))

/-- Which instructions do not complete in their step (R13, R279, R316): GETC and IN exactly while no byte is to come, PUTS and
PUTSP exactly when the string has no zero word however far it is read; every other instruction completes. The mark of a step
not completed is the model's `pending` (log 17, 18). -/
def Obligations.OnlyHeldReadsAndEndlessStringsDoNotComplete : Prop :=
  ∀ (i : Instr) (s : State), s.mem.wf = true → s.pending = none →
    ∃ t, exec i s = .next t ∧
      (t.pending ≠ none ↔
        ((i = .trapGetc ∨ i = .trapIn) ∧ takeByte s.input = none) ∨
        ((i = .trapPuts ∨ i = .trapPutsp) ∧ ∀ n, ∀ w ∈ (readWords n (s.reg .r0) s).1, w ≠ 0#16))

/-- HALT (R236): the notice and a flush are written and the run state becomes HALTED; the registers, the pc, the flags,
memory and the input keep their values. The notice is any byte string (log 8). -/
def Obligations.HaltWritesTheNoticeAndHalts : Prop :=
  ∀ s : State, ∃ t, exec .trapHalt s = .next t ∧ t.run = .halted ∧
    t.output = s.output ++ s.cfg.haltNotice.map .byte ++ [.flush] ∧ SameCore s t ∧ (∀ a, t.peek a = s.peek a) ∧
    t.input = s.input ∧ t.pending = s.pending ∧ t.reports = s.reports ∧ t.cfg = s.cfg

/-- TRAP with any other vector does nothing at all (R237; D22 and C2, log 22). -/
def Obligations.OtherVectorsDoNothing : Prop :=
  ∀ (v : BitVec 8) (s : State), exec (.trapOther v) s = .next s

/-- No trap routine touches R1 to R7, the pc or the flags, or a cell other than the two keyboard cells (R230, R238; D17,
log 21). -/
def Obligations.TrapRoutinesTouchOnlyR0 : Prop :=
  ∀ (i : Instr) (s : State), s.mem.wf = true → opcode i = 0xF#4 → ∃ t, exec i s = .next t ∧
    (∀ r, r ≠ .r0 → t.reg r = s.reg r) ∧ t.pc = s.pc ∧ t.cond = s.cond ∧ t.reports = s.reports ∧ t.cfg = s.cfg ∧
    (∀ a, a ≠ s.cfg.kbsrAddr → a ≠ s.cfg.kbdrAddr → t.peek a = s.peek a)

/-! ## The fatal abort and the run states -/

/-- RTI and RES (R260, R261, R271): one abort report, the run state ABORTED, and nothing else: no register, flag, pc, cell,
input or output. The report's label is the model's trace (log 19). -/
def Obligations.RtiAndResAbort : Prop :=
  ∀ s : State,
    (∃ t, exec .rti s = .next t ∧ t.run = .aborted ∧ t.reports = s.reports ++ [.rti] ∧ SameCore s t ∧
      (∀ a, t.peek a = s.peek a) ∧ t.input = s.input ∧ t.output = s.output ∧ t.pending = s.pending ∧ t.cfg = s.cfg) ∧
    (∃ t, exec .res s = .next t ∧ t.run = .aborted ∧ t.reports = s.reports ++ [.res] ∧ SameCore s t ∧
      (∀ a, t.peek a = s.peek a) ∧ t.input = s.input ∧ t.output = s.output ∧ t.pending = s.pending ∧ t.cfg = s.cfg)

/-- R130: one step of a RUNNING machine with no step in progress fetches the word at the pc by a `MemRead`, increments the pc
modulo 2^16 and executes what the word decodes to. -/
def Obligations.StepRunsTheDecodedInstruction : Prop :=
  ∀ s : State, s.run = .running → s.pending = none →
    step s = exec (decode (s.memRead s.pc).1) ((s.memRead s.pc).2.setPc (s.pc + 1)) ∧
    (s.pc ≠ s.cfg.kbsrAddr → step s = exec (decode (s.peek s.pc)) (s.setPc (s.pc + 1)))

/-- R138: there is no step out of HALTED or ABORTED. -/
def Obligations.NoStepAfterTheEnd : Prop :=
  ∀ s : State, s.run ≠ .running → ∀ t, step s ≠ .next t

/-- The run-state machine of R270. A step leaves RUNNING for HALTED exactly by the HALT routine and for ABORTED exactly by RTI
or RES; any other instruction, and a routine taken up again, leaves it RUNNING; no step starts from HALTED or ABORTED. That no
"other fatal condition" aborts is the spec's C6 and D36 (log 27); that a routine is taken up again is the model's way to show a
step not completed (log 17, 18). -/
def Obligations.RunStateTransitions : Prop :=
  ∀ s t : State, step s = .next t →
    s.run = .running ∧
    (s.pending ≠ none → t.run = .running) ∧
    (s.pending = none → t.run = runAfter (decode (s.memRead s.pc).1)) ∧
    (t.run = .halted ↔ s.pending = none ∧ decode (s.memRead s.pc).1 = .trapHalt) ∧
    (t.run = .aborted ↔ s.pending = none ∧
      (decode (s.memRead s.pc).1 = .rti ∨ decode (s.memRead s.pc).1 = .res))

/-- Nothing faults (R273; the spec's D36, log 27): every instruction answers a next state in every state, and so does every step
of a RUNNING machine. For a GETC or IN held with no byte and for an endless string, which R279 and R316 say do not complete, the
next state is the model's (log 17, 18); which instructions complete is OnlyHeldReadsAndEndlessStringsDoNotComplete. -/
def Obligations.NoInstructionFaults : Prop :=
  (∀ (i : Instr) (s : State), ∃ t, exec i s = .next t) ∧
  (∀ s : State, s.run = .running → ∃ t, step s = .next t)

/-! ## Whole-machine rules -/

/-- Every step keeps the invariant: memory in canonical form, the flags one-hot or at their reset value (R30), the parameters
as R7 requires, no step in progress after the end of the run (R138). -/
def Obligations.StepKeepsTheInvariant : Prop :=
  ∀ s t : State, s.Inv → step s = .next t → t.Inv

/-- The invariant holds after reset with any parameters R7 allows, the defaults among them. -/
def Obligations.InvariantHoldsAtReset : Prop :=
  (∀ c : Config, c.ok = true → (State.resetWith c).Inv) ∧ State.reset.Inv

/-- The invariant holds of every booted machine, and the environment extending the input keeps it (R301, R12). -/
def Obligations.InvariantHoldsAfterBootAndSupply : Prop :=
  (∀ (c : Config) (images : List (List Byte)) (s : State), c.ok = true → boot c images = some s → s.Inv) ∧
  (∀ (s : State) (es : List InEvent), s.Inv → (s.supply es).Inv)

/-- After any of the seven register-defining instructions the flags are exactly one of the three, that of the value just
written (R30); no other instruction writes them (R28), which for TRAP, GETC and IN is the spec's D17 (conflict C1; log 21); so
once exactly one flag is set it stays so at every step. -/
def Obligations.FlagsFollowTheSevenDefiningInstructions : Prop :=
  (∀ (i : Instr) (d : Reg) (s : State), definedReg i = some d →
    ∃ t, exec i s = .next t ∧ t.cond = ccOf (t.reg d) ∧ oneFlag t.cond) ∧
  (∀ (i : Instr) (s t : State), definedReg i = none → exec i s = .next t → t.cond = s.cond) ∧
  (∀ s t : State, oneFlag s.cond → step s = .next t → oneFlag t.cond)

/-- R22: an instruction writes no general register but the one its row names. -/
def Obligations.OnlyTheNamedRegisterIsWritten : Prop :=
  ∀ (i : Instr) (s t : State) (r : Reg), exec i s = .next t → writtenReg i ≠ some r → t.reg r = s.reg r

/-- R26: only BR, JMP, RET, JSR and JSRR write the pc after the fetch, and no held or unfinished routine does. -/
def Obligations.OnlyControlTransfersWriteThePc : Prop :=
  (∀ (i : Instr) (s t : State), writesPc i = false → exec i s = .next t → t.pc = s.pc) ∧
  (∀ s t : State, s.pending ≠ none → step s = .next t → t.pc = s.pc)

/-- R70, with the accesses of R57: a cell changes in a step only if it is the one an explicit `MemWrite` of ST, STI or STR goes
to, or if it is a keyboard cell and the step reads `KBSR_ADDR`; and an instruction that reads nothing after its fetch, or reads
no `KBSR_ADDR`, changes no cell but the one it stores to. The reads of a routine taken up again are the model's (log 18). -/
def Obligations.OnlyStoresAndThePollWriteMemory : Prop :=
  (∀ (s t : State) (a : Word), s.mem.wf = true → step s = .next t → t.peek a ≠ s.peek a →
    (s.pending = none ∧ storeAddress (decode s.fetch.1) s.fetch.2 = some a) ∨
      ((a = s.cfg.kbsrAddr ∨ a = s.cfg.kbdrAddr) ∧ stepReadsAt s s.cfg.kbsrAddr)) ∧
  (∀ (i : Instr) (s : State) (a : Word), s.mem.wf = true → readsNothing i = true ∨ ¬ readsAt i s s.cfg.kbsrAddr →
    storeAddress i s ≠ some a → ∃ t, exec i s = .next t ∧ t.peek a = s.peek a)

/-- A step only takes from the front of the input, and only appends to the output history and the abort reports (R12, R37,
R271); it never changes a parameter (R7). -/
def Obligations.ChannelsOnlyMoveForward : Prop :=
  ∀ s t : State, step s = .next t →
    t.input <:+ s.input ∧ s.output <+: t.output ∧ s.reports <+: t.reports ∧ t.cfg = s.cfg

/-- Input is observed only through GETC, IN and reads of memory (R37): the other instructions do the same whatever the input
is. -/
def Obligations.OtherInstructionsDoNotSeeTheInput : Prop :=
  ∀ (i : Instr) (s : State) (es : List InEvent), readsNothing i = true →
    ∃ t, exec i s = .next t ∧ t.input = s.input ∧ exec i (s.setInput es) = .next (t.setInput es)

/-- A store to the address of the very next instruction changes what is fetched next (R67, R314): `ST src, #0`, then the step
after it runs the word that was stored. -/
def Obligations.AStoreIsSeenByTheNextFetch : Prop :=
  ∀ (s : State) (src : Reg), s.mem.wf = true → s.run = .running → s.pending = none → s.pc ≠ s.cfg.kbsrAddr →
    s.pc + 1 ≠ s.cfg.kbsrAddr → decode (s.peek s.pc) = .st src 0 →
    ∃ t, step s = .next t ∧ t.pc = s.pc + 1 ∧ step t = exec (decode (s.reg src)) (t.setPc (s.pc + 2))
end

