-- ==== Sys2Proof/Laws/Memory.lean ====
section
/-! SUPPORT. Memory as a list in canonical form: every operation keeps the form (`Memory.wf`), a read after a write gives
the value written at its own address and the old one anywhere else, and two memories in the form that read alike are
equal. -/

namespace Sys2Proof.Machine

/-- The canonical form, said of a list with a first cell. -/
theorem Memory.wf_cons {a : Nat} {v : Word} {rest : Memory} :
    Memory.wf ((a, v) :: rest) = true ↔
      a < 65536 ∧ v ≠ unlisted ∧ (∀ c ∈ rest, a < c.1) ∧ Memory.wf rest = true := by
  simp [Memory.wf, and_assoc]

/-- An address no cell is listed at reads as an unlisted one. -/
theorem Memory.read_of_lt {m : Memory} {a : Nat} (h : ∀ c ∈ m, a < c.1) : m.read a = unlisted := by
  induction m with
  | nil => rfl
  | cons c rest ih =>
    obtain ⟨b, v⟩ := c
    have hb : a < b := h (b, v) (by simp)
    simp only [Memory.read, if_neg (Nat.ne_of_lt hb)]
    exact ih fun c hc => h c (by simp [hc])

/-- The cells of a written memory are the written one and cells there were. -/
theorem Memory.mem_write {m : Memory} {a : Nat} {v : Word} {c : Cell} (h : c ∈ m.write a v) : c = (a, v) ∨ c ∈ m := by
  induction m with
  | nil =>
    simp only [Memory.write, Memory.put] at h
    split at h <;> simp_all
  | cons d rest ih =>
    obtain ⟨b, w⟩ := d
    simp only [Memory.write, Memory.put] at h
    split at h
    · split at h <;> simp_all
    · split at h
      · split at h
        · exact .inr (by simp [h])
        · rcases List.mem_cons.mp h with h | h
          · exact .inl h
          · exact .inr (by simp [h])
      · rcases List.mem_cons.mp h with h | h
        · exact .inr (by simp [h])
        · exact (ih h).imp_right (by simp +contextual)

/-- A write keeps the canonical form. -/
theorem Memory.write_wf {m : Memory} {a : Nat} {v : Word} (hm : m.wf = true) (ha : a < 65536) :
    (m.write a v).wf = true := by
  induction m with
  | nil =>
    simp only [Memory.write, Memory.put]
    split
    · rfl
    · simp [Memory.wf, *]
  | cons d rest ih =>
    obtain ⟨b, w⟩ := d
    obtain ⟨hb, hw, hlt, hrest⟩ := Memory.wf_cons.mp hm
    simp only [Memory.write, Memory.put]
    split
    · split
      · exact hm
      · refine Memory.wf_cons.mpr ⟨ha, ‹_›, ?_, hm⟩
        intro c hc
        rcases List.mem_cons.mp hc with rfl | hc
        · assumption
        · exact Nat.lt_trans ‹_› (hlt c hc)
    · split
      · subst b
        split
        · exact hrest
        · exact Memory.wf_cons.mpr ⟨ha, ‹_›, hlt, hrest⟩
      · refine Memory.wf_cons.mpr ⟨hb, hw, ?_, ih hrest⟩
        intro c hc
        rcases Memory.mem_write hc with rfl | hc
        · show b < a
          omega
        · exact hlt c hc

/-- What a memory in canonical form reads as after a write. -/
theorem Memory.read_write {m : Memory} (hm : m.wf = true) (a c : Nat) (v : Word) :
    (m.write a v).read c = if c = a then v else m.read c := by
  induction m with
  | nil =>
    simp only [Memory.write, Memory.put]
    split <;> simp_all [Memory.read]
  | cons d rest ih =>
    obtain ⟨b, w⟩ := d
    obtain ⟨_, _, hlt, hrest⟩ := Memory.wf_cons.mp hm
    simp only [Memory.write, Memory.put]
    split
    · by_cases hv : v = unlisted
      · rw [if_pos hv]
        by_cases hc : c = a
        · rw [if_pos hc, hv]
          refine Memory.read_of_lt fun d hd => ?_
          rcases List.mem_cons.mp hd with rfl | hd
          · simpa [hc]
          · exact hc ▸ Nat.lt_trans ‹_› (hlt d hd)
        · rw [if_neg hc]
      · rw [if_neg hv]
        simp [Memory.read]
    · split
      · subst b
        by_cases hv : v = unlisted
        · rw [if_pos hv]
          by_cases hc : c = a
          · rw [if_pos hc, hv, hc]
            exact Memory.read_of_lt hlt
          · rw [if_neg hc]
            simp [Memory.read, hc]
        · rw [if_neg hv]
          by_cases hc : c = a <;> simp [Memory.read, hc]
      · by_cases hc : c = b
        · subst c
          have : b ≠ a := by omega
          simp [Memory.read, this]
        · simp only [Memory.read, if_neg hc]
          exact ih hrest

/-- Two memories in canonical form that read alike below 65536 are the same list. -/
theorem Memory.ext_of_read {m m' : Memory} (hm : m.wf = true) (hm' : m'.wf = true)
    (h : ∀ a, a < 65536 → m.read a = m'.read a) : m = m' := by
  induction m generalizing m' with
  | nil =>
    cases m' with
    | nil => rfl
    | cons c rest =>
      obtain ⟨b, v⟩ := c
      obtain ⟨hb, hv, _, _⟩ := Memory.wf_cons.mp hm'
      have := h b hb
      simp only [Memory.read, if_true] at this
      exact absurd this.symm hv
  | cons c rest ih =>
    obtain ⟨a, v⟩ := c
    obtain ⟨ha, hv, hlt, hrest⟩ := Memory.wf_cons.mp hm
    cases m' with
    | nil =>
      have := h a ha
      simp only [Memory.read, if_true] at this
      exact absurd this hv
    | cons c' rest' =>
      obtain ⟨b, w⟩ := c'
      obtain ⟨hb, hw, hlt', hrest'⟩ := Memory.wf_cons.mp hm'
      have hab : a = b := by
        rcases Nat.lt_trichotomy a b with hl | he | hl
        · have h1 := h a ha
          rw [Memory.read_of_lt (m := (b, w) :: rest') (by
            intro c hc
            rcases List.mem_cons.mp hc with rfl | hc
            · exact hl
            · exact Nat.lt_trans hl (hlt' c hc))] at h1
          simp only [Memory.read, if_true] at h1
          exact absurd h1 hv
        · exact he
        · have h1 := h b hb
          rw [Memory.read_of_lt (m := (a, v) :: rest) (by
            intro c hc
            rcases List.mem_cons.mp hc with rfl | hc
            · exact hl
            · exact Nat.lt_trans hl (hlt c hc))] at h1
          simp only [Memory.read, if_true] at h1
          exact absurd h1.symm hw
      subst b
      have hvw : v = w := by
        have h1 := h a ha
        simpa only [Memory.read, if_true] using h1
      subst w
      have : rest = rest' := by
        refine ih hrest hrest' fun x hx => ?_
        by_cases hxa : x = a
        · subst x
          rw [Memory.read_of_lt hlt, Memory.read_of_lt hlt']
        · have h1 := h x hx
          simpa only [Memory.read, if_neg hxa] using h1
      rw [this]

/-- A list of cells at consecutive addresses from `a`, all holding `v`. -/
theorem Memory.read_map_range' (v : Word) (n a x : Nat) :
    Memory.read ((List.range' a n).map fun k => (k, v)) x = if a ≤ x ∧ x < a + n then v else unlisted := by
  induction n generalizing a with
  | zero =>
    have : ¬ (a ≤ x ∧ x < a + 0) := by omega
    rw [if_neg this]
    rfl
  | succ n ih =>
    rw [List.range'_succ]
    simp only [List.map_cons, Memory.read]
    by_cases hx : x = a
    · have : a ≤ x ∧ x < a + (n + 1) := by omega
      rw [if_pos hx, if_pos this]
    · rw [if_neg hx, ih]
      congr 1
      exact propext ⟨fun h => by omega, fun h => by omega⟩

theorem Memory.wf_map_range' {v : Word} (hv : v ≠ unlisted) (n a : Nat) (h : a + n ≤ 65536) :
    Memory.wf ((List.range' a n).map fun k => (k, v)) = true := by
  induction n generalizing a with
  | zero => rfl
  | succ n ih =>
    rw [List.range'_succ, List.map_cons]
    refine Memory.wf_cons.mpr ⟨by omega, hv, ?_, ih (a + 1) (by omega)⟩
    intro c hc
    obtain ⟨k, hk, rfl⟩ := List.mem_map.mp hc
    have := List.mem_range'_1.mp hk
    show a < k
    omega

/-- Memory filled with one value is in canonical form. -/
theorem Memory.filled_wf (v : Word) : (Memory.filled v).wf = true := by
  unfold Memory.filled
  split
  · rfl
  · rw [List.range_eq_range']
    exact Memory.wf_map_range' ‹_› _ _ (Nat.le_refl _)

/-- Memory filled with one value reads as it at every address. -/
theorem Memory.filled_read (v : Word) {a : Nat} (h : a < 65536) : (Memory.filled v).read a = v := by
  unfold Memory.filled
  split
  · subst v; rfl
  · rw [List.range_eq_range', Memory.read_map_range', if_pos ⟨Nat.zero_le a, by omega⟩]

/-- Loading words keeps the canonical form. -/
theorem Memory.storeFrom_wf {m : Memory} (hm : m.wf = true) (a : Nat) (ws : List Word) :
    (Memory.storeFrom a ws m).wf = true := by
  induction ws generalizing a m with
  | nil => exact hm
  | cons w ws ih =>
    unfold Memory.storeFrom
    split
    · exact ih (Memory.write_wf hm ‹_›) (a + 1)
    · exact hm

/-- What a memory in canonical form reads as after words are loaded from `a` up: the load does not wrap (R304). -/
theorem Memory.read_storeFrom {m : Memory} (hm : m.wf = true) (a : Nat) (ws : List Word) {x : Nat} (hx : x < 65536) :
    (Memory.storeFrom a ws m).read x = if a ≤ x then ws.getD (x - a) (m.read x) else m.read x := by
  induction ws generalizing a m with
  | nil => simp [Memory.storeFrom]
  | cons w ws ih =>
    unfold Memory.storeFrom
    by_cases ha : a < 65536
    · rw [if_pos ha, ih (Memory.write_wf hm ha), Memory.read_write hm]
      by_cases h1 : a + 1 ≤ x
      · have hxa : x ≠ a := by omega
        have h0 : a ≤ x := by omega
        have : x - a = (x - (a + 1)) + 1 := by omega
        rw [if_pos h1, if_pos h0, if_neg hxa, this, List.getD_cons_succ]
      · rw [if_neg h1]
        by_cases hxa : x = a
        · subst x; simp
        · have h0 : ¬ a ≤ x := by omega
          rw [if_neg hxa, if_neg h0]
    · have h0 : ¬ a ≤ x := by omega
      rw [if_neg ha, if_neg h0]

/-! ### The same of a state -/

/-- `M[b]` after `MemWrite(a, v)`. -/
theorem State.memWrite_peek {s : State} (hs : s.mem.wf = true) (a v b : Word) :
    (s.memWrite a v).peek b = if b = a then v else s.peek b := by
  show (s.mem.write a.toNat v).read b.toNat = _
  rw [Memory.read_write hs]
  simp only [← BitVec.toNat_inj]
  rfl

theorem State.memWrite_wf {s : State} (hs : s.mem.wf = true) (a v : Word) : (s.memWrite a v).mem.wf = true :=
  Memory.write_wf hs a.isLt

end Sys2Proof.Machine
end

