-- ==== Sys2Proof/Laws/State.lean ====
section
/-! SUPPORT. One lemma per field per update of the state, so that no later proof unfolds a record update. -/

namespace Sys2Proof.Machine

/-! ### Registers -/

@[simp] theorem RegFile.get_set_self (f : RegFile) (r : Reg) (v : Word) : (f.set r v).get r = v := by
  cases r <;> rfl

theorem RegFile.get_set_of_ne (f : RegFile) {r q : Reg} (h : q ≠ r) (v : Word) : (f.set r v).get q = f.get q := by
  cases r <;> cases q <;> first | rfl | exact absurd rfl h

@[simp] theorem State.setReg_reg_self (s : State) (r : Reg) (v : Word) : (s.setReg r v).reg r = v :=
  RegFile.get_set_self s.regs r v

theorem State.setReg_reg_of_ne (s : State) {r q : Reg} (h : q ≠ r) (v : Word) : (s.setReg r v).reg q = s.reg q :=
  RegFile.get_set_of_ne s.regs h v

/-- A register after a write, whichever it is. -/
theorem State.setReg_reg (s : State) (r q : Reg) (v : Word) : (s.setReg r v).reg q = if q = r then v else s.reg q := by
  split
  · subst q; exact s.setReg_reg_self r v
  · exact s.setReg_reg_of_ne ‹_› v

/-! ### `State.setReg` -/

@[simp] theorem State.setReg_regs (s : State) (r : Reg) (v : Word) : (s.setReg r v).regs = s.regs.set r v := rfl
@[simp] theorem State.setReg_pc (s : State) (r : Reg) (v : Word) : (s.setReg r v).pc = s.pc := rfl
@[simp] theorem State.setReg_cond (s : State) (r : Reg) (v : Word) : (s.setReg r v).cond = s.cond := rfl
@[simp] theorem State.setReg_run (s : State) (r : Reg) (v : Word) : (s.setReg r v).run = s.run := rfl
@[simp] theorem State.setReg_mem (s : State) (r : Reg) (v : Word) : (s.setReg r v).mem = s.mem := rfl
@[simp] theorem State.setReg_pending (s : State) (r : Reg) (v : Word) : (s.setReg r v).pending = s.pending := rfl
@[simp] theorem State.setReg_input (s : State) (r : Reg) (v : Word) : (s.setReg r v).input = s.input := rfl
@[simp] theorem State.setReg_output (s : State) (r : Reg) (v : Word) : (s.setReg r v).output = s.output := rfl
@[simp] theorem State.setReg_reports (s : State) (r : Reg) (v : Word) : (s.setReg r v).reports = s.reports := rfl
@[simp] theorem State.setReg_cfg (s : State) (r : Reg) (v : Word) : (s.setReg r v).cfg = s.cfg := rfl
@[simp] theorem State.setReg_peek (s : State) (r : Reg) (v : Word) (x : Word) : (s.setReg r v).peek x = s.peek x := rfl

/-! ### `State.setPc` -/

@[simp] theorem State.setPc_regs (s : State) (v : Word) : (s.setPc v).regs = s.regs := rfl
@[simp] theorem State.setPc_pc (s : State) (v : Word) : (s.setPc v).pc = v := rfl
@[simp] theorem State.setPc_cond (s : State) (v : Word) : (s.setPc v).cond = s.cond := rfl
@[simp] theorem State.setPc_run (s : State) (v : Word) : (s.setPc v).run = s.run := rfl
@[simp] theorem State.setPc_mem (s : State) (v : Word) : (s.setPc v).mem = s.mem := rfl
@[simp] theorem State.setPc_pending (s : State) (v : Word) : (s.setPc v).pending = s.pending := rfl
@[simp] theorem State.setPc_input (s : State) (v : Word) : (s.setPc v).input = s.input := rfl
@[simp] theorem State.setPc_output (s : State) (v : Word) : (s.setPc v).output = s.output := rfl
@[simp] theorem State.setPc_reports (s : State) (v : Word) : (s.setPc v).reports = s.reports := rfl
@[simp] theorem State.setPc_cfg (s : State) (v : Word) : (s.setPc v).cfg = s.cfg := rfl
@[simp] theorem State.setPc_reg (s : State) (v : Word) (q : Reg) : (s.setPc v).reg q = s.reg q := rfl
@[simp] theorem State.setPc_peek (s : State) (v : Word) (x : Word) : (s.setPc v).peek x = s.peek x := rfl

/-! ### `State.setCond` -/

@[simp] theorem State.setCond_regs (s : State) (c : BitVec 3) : (s.setCond c).regs = s.regs := rfl
@[simp] theorem State.setCond_pc (s : State) (c : BitVec 3) : (s.setCond c).pc = s.pc := rfl
@[simp] theorem State.setCond_cond (s : State) (c : BitVec 3) : (s.setCond c).cond = c := rfl
@[simp] theorem State.setCond_run (s : State) (c : BitVec 3) : (s.setCond c).run = s.run := rfl
@[simp] theorem State.setCond_mem (s : State) (c : BitVec 3) : (s.setCond c).mem = s.mem := rfl
@[simp] theorem State.setCond_pending (s : State) (c : BitVec 3) : (s.setCond c).pending = s.pending := rfl
@[simp] theorem State.setCond_input (s : State) (c : BitVec 3) : (s.setCond c).input = s.input := rfl
@[simp] theorem State.setCond_output (s : State) (c : BitVec 3) : (s.setCond c).output = s.output := rfl
@[simp] theorem State.setCond_reports (s : State) (c : BitVec 3) : (s.setCond c).reports = s.reports := rfl
@[simp] theorem State.setCond_cfg (s : State) (c : BitVec 3) : (s.setCond c).cfg = s.cfg := rfl
@[simp] theorem State.setCond_reg (s : State) (c : BitVec 3) (q : Reg) : (s.setCond c).reg q = s.reg q := rfl
@[simp] theorem State.setCond_peek (s : State) (c : BitVec 3) (x : Word) : (s.setCond c).peek x = s.peek x := rfl

/-! ### `State.setRun` -/

@[simp] theorem State.setRun_regs (s : State) (r : RunState) : (s.setRun r).regs = s.regs := rfl
@[simp] theorem State.setRun_pc (s : State) (r : RunState) : (s.setRun r).pc = s.pc := rfl
@[simp] theorem State.setRun_cond (s : State) (r : RunState) : (s.setRun r).cond = s.cond := rfl
@[simp] theorem State.setRun_run (s : State) (r : RunState) : (s.setRun r).run = r := rfl
@[simp] theorem State.setRun_mem (s : State) (r : RunState) : (s.setRun r).mem = s.mem := rfl
@[simp] theorem State.setRun_pending (s : State) (r : RunState) : (s.setRun r).pending = s.pending := rfl
@[simp] theorem State.setRun_input (s : State) (r : RunState) : (s.setRun r).input = s.input := rfl
@[simp] theorem State.setRun_output (s : State) (r : RunState) : (s.setRun r).output = s.output := rfl
@[simp] theorem State.setRun_reports (s : State) (r : RunState) : (s.setRun r).reports = s.reports := rfl
@[simp] theorem State.setRun_cfg (s : State) (r : RunState) : (s.setRun r).cfg = s.cfg := rfl
@[simp] theorem State.setRun_reg (s : State) (r : RunState) (q : Reg) : (s.setRun r).reg q = s.reg q := rfl
@[simp] theorem State.setRun_peek (s : State) (r : RunState) (x : Word) : (s.setRun r).peek x = s.peek x := rfl

/-! ### `State.setPending` -/

@[simp] theorem State.setPending_regs (s : State) (p : Option Routine) : (s.setPending p).regs = s.regs := rfl
@[simp] theorem State.setPending_pc (s : State) (p : Option Routine) : (s.setPending p).pc = s.pc := rfl
@[simp] theorem State.setPending_cond (s : State) (p : Option Routine) : (s.setPending p).cond = s.cond := rfl
@[simp] theorem State.setPending_run (s : State) (p : Option Routine) : (s.setPending p).run = s.run := rfl
@[simp] theorem State.setPending_mem (s : State) (p : Option Routine) : (s.setPending p).mem = s.mem := rfl
@[simp] theorem State.setPending_pending (s : State) (p : Option Routine) : (s.setPending p).pending = p := rfl
@[simp] theorem State.setPending_input (s : State) (p : Option Routine) : (s.setPending p).input = s.input := rfl
@[simp] theorem State.setPending_output (s : State) (p : Option Routine) : (s.setPending p).output = s.output := rfl
@[simp] theorem State.setPending_reports (s : State) (p : Option Routine) : (s.setPending p).reports = s.reports := rfl
@[simp] theorem State.setPending_cfg (s : State) (p : Option Routine) : (s.setPending p).cfg = s.cfg := rfl
@[simp] theorem State.setPending_reg (s : State) (p : Option Routine) (q : Reg) : (s.setPending p).reg q = s.reg q := rfl
@[simp] theorem State.setPending_peek (s : State) (p : Option Routine) (x : Word) : (s.setPending p).peek x = s.peek x := rfl

/-! ### `State.setInput` -/

@[simp] theorem State.setInput_regs (s : State) (i : List InEvent) : (s.setInput i).regs = s.regs := rfl
@[simp] theorem State.setInput_pc (s : State) (i : List InEvent) : (s.setInput i).pc = s.pc := rfl
@[simp] theorem State.setInput_cond (s : State) (i : List InEvent) : (s.setInput i).cond = s.cond := rfl
@[simp] theorem State.setInput_run (s : State) (i : List InEvent) : (s.setInput i).run = s.run := rfl
@[simp] theorem State.setInput_mem (s : State) (i : List InEvent) : (s.setInput i).mem = s.mem := rfl
@[simp] theorem State.setInput_pending (s : State) (i : List InEvent) : (s.setInput i).pending = s.pending := rfl
@[simp] theorem State.setInput_input (s : State) (i : List InEvent) : (s.setInput i).input = i := rfl
@[simp] theorem State.setInput_output (s : State) (i : List InEvent) : (s.setInput i).output = s.output := rfl
@[simp] theorem State.setInput_reports (s : State) (i : List InEvent) : (s.setInput i).reports = s.reports := rfl
@[simp] theorem State.setInput_cfg (s : State) (i : List InEvent) : (s.setInput i).cfg = s.cfg := rfl
@[simp] theorem State.setInput_reg (s : State) (i : List InEvent) (q : Reg) : (s.setInput i).reg q = s.reg q := rfl
@[simp] theorem State.setInput_peek (s : State) (i : List InEvent) (x : Word) : (s.setInput i).peek x = s.peek x := rfl

/-! ### `State.memWrite` -/

@[simp] theorem State.memWrite_regs (s : State) (a v : Word) : (s.memWrite a v).regs = s.regs := rfl
@[simp] theorem State.memWrite_pc (s : State) (a v : Word) : (s.memWrite a v).pc = s.pc := rfl
@[simp] theorem State.memWrite_cond (s : State) (a v : Word) : (s.memWrite a v).cond = s.cond := rfl
@[simp] theorem State.memWrite_run (s : State) (a v : Word) : (s.memWrite a v).run = s.run := rfl
@[simp] theorem State.memWrite_mem (s : State) (a v : Word) : (s.memWrite a v).mem = s.mem.write a.toNat v := rfl
@[simp] theorem State.memWrite_pending (s : State) (a v : Word) : (s.memWrite a v).pending = s.pending := rfl
@[simp] theorem State.memWrite_input (s : State) (a v : Word) : (s.memWrite a v).input = s.input := rfl
@[simp] theorem State.memWrite_output (s : State) (a v : Word) : (s.memWrite a v).output = s.output := rfl
@[simp] theorem State.memWrite_reports (s : State) (a v : Word) : (s.memWrite a v).reports = s.reports := rfl
@[simp] theorem State.memWrite_cfg (s : State) (a v : Word) : (s.memWrite a v).cfg = s.cfg := rfl
@[simp] theorem State.memWrite_reg (s : State) (a v : Word) (q : Reg) : (s.memWrite a v).reg q = s.reg q := rfl

/-! ### `State.emit` -/

@[simp] theorem State.emit_regs (s : State) (es : List OutEvent) : (s.emit es).regs = s.regs := rfl
@[simp] theorem State.emit_pc (s : State) (es : List OutEvent) : (s.emit es).pc = s.pc := rfl
@[simp] theorem State.emit_cond (s : State) (es : List OutEvent) : (s.emit es).cond = s.cond := rfl
@[simp] theorem State.emit_run (s : State) (es : List OutEvent) : (s.emit es).run = s.run := rfl
@[simp] theorem State.emit_mem (s : State) (es : List OutEvent) : (s.emit es).mem = s.mem := rfl
@[simp] theorem State.emit_pending (s : State) (es : List OutEvent) : (s.emit es).pending = s.pending := rfl
@[simp] theorem State.emit_input (s : State) (es : List OutEvent) : (s.emit es).input = s.input := rfl
@[simp] theorem State.emit_output (s : State) (es : List OutEvent) : (s.emit es).output = s.output ++ es := rfl
@[simp] theorem State.emit_reports (s : State) (es : List OutEvent) : (s.emit es).reports = s.reports := rfl
@[simp] theorem State.emit_cfg (s : State) (es : List OutEvent) : (s.emit es).cfg = s.cfg := rfl
@[simp] theorem State.emit_reg (s : State) (es : List OutEvent) (q : Reg) : (s.emit es).reg q = s.reg q := rfl
@[simp] theorem State.emit_peek (s : State) (es : List OutEvent) (x : Word) : (s.emit es).peek x = s.peek x := rfl

/-! ### `State.report` -/

@[simp] theorem State.report_regs (s : State) (c : AbortCause) : (s.report c).regs = s.regs := rfl
@[simp] theorem State.report_pc (s : State) (c : AbortCause) : (s.report c).pc = s.pc := rfl
@[simp] theorem State.report_cond (s : State) (c : AbortCause) : (s.report c).cond = s.cond := rfl
@[simp] theorem State.report_run (s : State) (c : AbortCause) : (s.report c).run = s.run := rfl
@[simp] theorem State.report_mem (s : State) (c : AbortCause) : (s.report c).mem = s.mem := rfl
@[simp] theorem State.report_pending (s : State) (c : AbortCause) : (s.report c).pending = s.pending := rfl
@[simp] theorem State.report_input (s : State) (c : AbortCause) : (s.report c).input = s.input := rfl
@[simp] theorem State.report_output (s : State) (c : AbortCause) : (s.report c).output = s.output := rfl
@[simp] theorem State.report_reports (s : State) (c : AbortCause) : (s.report c).reports = s.reports ++ [c] := rfl
@[simp] theorem State.report_cfg (s : State) (c : AbortCause) : (s.report c).cfg = s.cfg := rfl
@[simp] theorem State.report_reg (s : State) (c : AbortCause) (q : Reg) : (s.report c).reg q = s.reg q := rfl
@[simp] theorem State.report_peek (s : State) (c : AbortCause) (x : Word) : (s.report c).peek x = s.peek x := rfl

/-! ### The operations made of those updates -/

@[simp] theorem State.outWrite_eq (s : State) (b : Byte) : s.outWrite b = s.emit [.byte b] := rfl
@[simp] theorem State.outWrites_eq (s : State) (bs : List Byte) : s.outWrites bs = s.emit (bs.map .byte) := rfl
@[simp] theorem State.outFlush_eq (s : State) : s.outFlush = s.emit [.flush] := rfl
@[simp] theorem State.setCC_eq (s : State) (v : Word) : s.setCC v = s.setCond (ccOf v) := rfl
@[simp] theorem State.define_eq (s : State) (dst : Reg) (v : Word) : s.define dst v = (s.setReg dst v).setCond (ccOf v) := rfl
@[simp] theorem State.raiseAbort_eq (s : State) (c : AbortCause) : s.raiseAbort c = (s.report c).setRun .aborted := rfl
@[simp] theorem State.supply_eq (s : State) (es : List InEvent) : s.supply es = s.setInput (s.input ++ es) := rfl
@[simp] theorem State.link_eq (s : State) : s.link = s.setReg .r7 s.pc := rfl
@[simp] theorem State.jumpTo_eq (s : State) (base : Reg) : s.jumpTo base = s.setPc (s.reg base) := rfl

end Sys2Proof.Machine
end

