-- ==== Sys2Proof/Laws/Ops.lean ====
section
/-! SUPPORT. What each shared operation can do, said once: the keyboard poll and `MemRead`, `InRead`, the string walk, and the
end of GETC and IN. Later proofs cite these and unfold none of the operations. -/

namespace Sys2Proof.Machine

/-! ### The poll -/

theorem State.poll_of_byte {s : State} {b : Byte} {rest : List InEvent} (h : s.input = .byte b :: rest) :
    s.poll = ((s.memWrite s.cfg.kbsrAddr s.cfg.kbsrReady).setInput rest).memWrite s.cfg.kbdrAddr (zext16 b) := by
  simp [State.poll, State.inAvail, State.inRead, takeByte, h]

theorem State.poll_of_quiet {s : State} {rest : List InEvent} (h : s.input = .quiet :: rest) :
    s.poll = (s.setInput rest).memWrite s.cfg.kbsrAddr (s.peek s.cfg.kbsrAddr &&& ~~~ s.cfg.kbsrReady) := by
  simp [State.poll, State.inAvail, h]

theorem State.poll_of_nil {s : State} (h : s.input = []) :
    s.poll = s.memWrite s.cfg.kbsrAddr (s.peek s.cfg.kbsrAddr &&& ~~~ s.cfg.kbsrReady) := by
  simp [State.poll, State.inAvail, h]

/-- Everything a poll can do: it finds a byte and latches it, or it clears the ready bit and the input loses at most a quiet
mark. -/
theorem State.poll_cases (s : State) :
    (∃ b rest, s.input = .byte b :: rest ∧
      s.poll = ((s.memWrite s.cfg.kbsrAddr s.cfg.kbsrReady).setInput rest).memWrite s.cfg.kbdrAddr (zext16 b)) ∨
    (∃ rest, (s.input = .quiet :: rest ∨ s.input = [] ∧ rest = []) ∧
      s.poll = (s.setInput rest).memWrite s.cfg.kbsrAddr (s.peek s.cfg.kbsrAddr &&& ~~~ s.cfg.kbsrReady)) := by
  match h : s.input with
  | .byte b :: rest => exact .inl ⟨b, rest, rfl, State.poll_of_byte h⟩
  | .quiet :: rest => exact .inr ⟨rest, .inl rfl, State.poll_of_quiet h⟩
  | [] =>
    refine .inr ⟨[], .inr ⟨rfl, rfl⟩, ?_⟩
    rw [State.poll_of_nil h]
    have : s.setInput [] = s := by cases s; cases h; rfl
    rw [this]

@[simp] theorem State.polled_of_ne {s : State} {a : Word} (h : a ≠ s.cfg.kbsrAddr) : s.polled a = s := if_neg h

@[simp] theorem State.polled_kbsr (s : State) : s.polled s.cfg.kbsrAddr = s.poll := if_pos rfl

/-- A property of states that holds of `s` and that the updates of a poll keep holds after any read. -/
theorem State.polled_induct {P : State → Prop} (s : State) (a : Word) (h : P s)
    (hm : ∀ t a v, P t → P (t.memWrite a v)) (hi : ∀ t i, P t → P (t.setInput i)) : P (s.polled a) := by
  unfold State.polled
  split
  · obtain ⟨b, rest, _, he⟩ | ⟨rest, _, he⟩ := s.poll_cases <;> rw [he]
    · exact hm _ _ _ (hi _ _ (hm _ _ _ h))
    · exact hm _ _ _ (hi _ _ h)
  · exact h

@[simp] theorem State.polled_regs (s : State) (a : Word) : (s.polled a).regs = s.regs :=
  State.polled_induct (P := fun t => t.regs = s.regs) s a rfl (fun _ _ _ h => h) (fun _ _ h => h)
@[simp] theorem State.polled_pc (s : State) (a : Word) : (s.polled a).pc = s.pc :=
  State.polled_induct (P := fun t => t.pc = s.pc) s a rfl (fun _ _ _ h => h) (fun _ _ h => h)
@[simp] theorem State.polled_cond (s : State) (a : Word) : (s.polled a).cond = s.cond :=
  State.polled_induct (P := fun t => t.cond = s.cond) s a rfl (fun _ _ _ h => h) (fun _ _ h => h)
@[simp] theorem State.polled_run (s : State) (a : Word) : (s.polled a).run = s.run :=
  State.polled_induct (P := fun t => t.run = s.run) s a rfl (fun _ _ _ h => h) (fun _ _ h => h)
@[simp] theorem State.polled_pending (s : State) (a : Word) : (s.polled a).pending = s.pending :=
  State.polled_induct (P := fun t => t.pending = s.pending) s a rfl (fun _ _ _ h => h) (fun _ _ h => h)
@[simp] theorem State.polled_output (s : State) (a : Word) : (s.polled a).output = s.output :=
  State.polled_induct (P := fun t => t.output = s.output) s a rfl (fun _ _ _ h => h) (fun _ _ h => h)
@[simp] theorem State.polled_reports (s : State) (a : Word) : (s.polled a).reports = s.reports :=
  State.polled_induct (P := fun t => t.reports = s.reports) s a rfl (fun _ _ _ h => h) (fun _ _ h => h)
@[simp] theorem State.polled_cfg (s : State) (a : Word) : (s.polled a).cfg = s.cfg :=
  State.polled_induct (P := fun t => t.cfg = s.cfg) s a rfl (fun _ _ _ h => h) (fun _ _ h => h)
@[simp] theorem State.polled_reg (s : State) (a : Word) (r : Reg) : (s.polled a).reg r = s.reg r :=
  congrArg (·.get r) (s.polled_regs a)

theorem State.polled_wf {s : State} (hs : s.mem.wf = true) (a : Word) : (s.polled a).mem.wf = true :=
  State.polled_induct (P := fun t => t.mem.wf = true) s a hs (fun _ _ _ h => State.memWrite_wf h _ _) (fun _ _ h => h)

/-- Reading loses the input at most its first item. -/
theorem State.polled_input (s : State) (a : Word) : (s.polled a).input = s.input ∨ (s.polled a).input = s.input.tail := by
  unfold State.polled
  split
  · obtain ⟨b, rest, hi, he⟩ | ⟨rest, hi, he⟩ := s.poll_cases
    · rw [he]; simp [hi]
    · rw [he]
      rcases hi with hi | ⟨hi, rfl⟩ <;> simp [hi]
  · exact .inl rfl

/-- A cell that is not a keyboard cell reads after any read as before it. -/
theorem State.polled_peek_of_ne {s : State} (hs : s.mem.wf = true) (a : Word) {c : Word} (h1 : c ≠ s.cfg.kbsrAddr)
    (h2 : c ≠ s.cfg.kbdrAddr) : (s.polled a).peek c = s.peek c := by
  unfold State.polled
  split
  · obtain ⟨b, rest, _, he⟩ | ⟨rest, _, he⟩ := s.poll_cases <;> rw [he]
    · rw [State.memWrite_peek (by simpa using Memory.write_wf hs (BitVec.isLt _)), if_neg h2, State.setInput_peek,
        State.memWrite_peek hs, if_neg h1]
    · rw [State.memWrite_peek (by simpa using hs), if_neg h1, State.setInput_peek]
  · rfl

/-! ### `MemRead` -/

@[simp] theorem State.memRead_fst (s : State) (a : Word) : (s.memRead a).1 = (s.polled a).peek a := rfl

@[simp] theorem State.memRead_snd (s : State) (a : Word) : (s.memRead a).2 = s.polled a := rfl

@[simp] theorem State.fetch_fst (s : State) : s.fetch.1 = (s.polled s.pc).peek s.pc := rfl

@[simp] theorem State.fetch_snd (s : State) : s.fetch.2 = (s.polled s.pc).setPc (s.pc + 1) := by
  simp [State.fetch]

/-- Output and a read's device update do not meet. -/
theorem State.polled_emit (s : State) (es : List OutEvent) (a : Word) : (s.emit es).polled a = (s.polled a).emit es := by
  by_cases hk : a = s.cfg.kbsrAddr
  · subst a
    have hk' := (s.emit es).polled_kbsr
    rw [State.emit_cfg] at hk'
    rw [hk', State.polled_kbsr]
    match hi : s.input with
    | .byte b :: rest => rw [State.poll_of_byte hi, State.poll_of_byte (s := s.emit es) hi]; rfl
    | .quiet :: rest => rw [State.poll_of_quiet hi, State.poll_of_quiet (s := s.emit es) hi]; rfl
    | [] => rw [State.poll_of_nil hi, State.poll_of_nil (s := s.emit es) hi]; rfl
  · rw [State.polled_of_ne hk, State.polled_of_ne (s := s.emit es) hk]

/-- The first of a sequence of reads, and the rest of them. -/
theorem readWords_succ (n : Nat) (a : Word) (s : State) :
    readWords (n + 1) a s =
      ((s.polled a).peek a :: (readWords n (a + 1) (s.polled a)).1, (readWords n (a + 1) (s.polled a)).2) := rfl

/-- Output and a sequence of reads do not meet. -/
theorem readWords_emit (n : Nat) (a : Word) (s : State) (es : List OutEvent) :
    readWords n a (s.emit es) = ((readWords n a s).1, (readWords n a s).2.emit es) := by
  induction n generalizing a s with
  | zero => rfl
  | succ n ih => simp [readWords_succ, State.polled_emit, ih]

/-- Bits 7..0 of a word are the word cut to 8 bits. -/
theorem lowByte_eq_setWidth (w : Word) : lowByte w = w.setWidth 8 := by
  ext i hi
  simp [lowByte, BitVec.getElem_setWidth]

/-! ### `InRead` and the ends of GETC and IN -/

/-- What a read takes is at the end of what it leaves off. -/
theorem takeByte_suffix {i : List InEvent} {b : Byte} {rest : List InEvent} (h : takeByte i = some (b, rest)) :
    rest <:+ i := by
  induction i with
  | nil => simp [takeByte] at h
  | cons e i ih =>
    cases e with
    | byte c =>
      obtain ⟨_, rfl⟩ : c = b ∧ i = rest := by simpa [takeByte] using h
      exact List.suffix_cons _ _
    | quiet => exact (ih (by simpa [takeByte] using h)).trans (List.suffix_cons _ _)

/-- Quiet marks before a byte are waited through; input already empty of bytes stays so until one is supplied. -/
theorem takeByte_append_of_none {i : List InEvent} (h : takeByte i = none) (es : List InEvent) :
    takeByte (i ++ es) = takeByte es := by
  induction i with
  | nil => rfl
  | cons e i ih =>
    cases e with
    | byte c => simp [takeByte] at h
    | quiet => simpa [takeByte] using ih (by simpa [takeByte] using h)

theorem State.inRead_of_some {s : State} {b : Byte} {rest : List InEvent} (h : takeByte s.input = some (b, rest)) :
    s.inRead = some (b, s.setInput rest) := by
  simp [State.inRead, h]

theorem State.inRead_of_none {s : State} (h : takeByte s.input = none) : s.inRead = none := by
  simp [State.inRead, h]

theorem State.runGetc_of_some {s : State} {b : Byte} {rest : List InEvent} (h : takeByte s.input = some (b, rest)) :
    s.runGetc = ((s.setInput rest).setReg .r0 (zext16 b)).setPending none := by
  simp [State.runGetc, State.inRead_of_some h]

theorem State.runGetc_of_none {s : State} (h : takeByte s.input = none) : s.runGetc = s.setPending (some .getc) := by
  simp [State.runGetc, State.inRead_of_none h]

theorem State.runIn_of_some {s : State} {b : Byte} {rest : List InEvent} (h : takeByte s.input = some (b, rest)) :
    s.runIn = (((s.setInput rest).emit [.byte b, .flush]).setReg .r0 (zext16 b)).setPending none := by
  simp [State.runIn, State.inRead_of_some h, State.emit]

theorem State.runIn_of_none {s : State} (h : takeByte s.input = none) : s.runIn = s.setPending (some .inn) := by
  simp [State.runIn, State.inRead_of_none h]

/-! ### The string walk -/

theorem State.walkString_zero (k : StringKind) (a : Word) (s : State) :
    State.walkString k 0 a s = s.setPending (some (.string k a)) := rfl

theorem State.walkString_succ (k : StringKind) (n : Nat) (a : Word) (s : State) :
    State.walkString k (n + 1) a s =
      if (s.memRead a).1 = 0x0000#16 then (s.memRead a).2.outFlush.setPending none
      else State.walkString k n (a + 1) ((s.memRead a).2.outWrites (k.bytes (s.memRead a).1)) := rfl

/-- A property of states that the updates of a string walk keep holds after it. -/
theorem State.walkString_induct {P : State → Prop} (k : StringKind) (n : Nat) (a : Word) (s : State) (h : P s)
    (hm : ∀ t a v, P t → P (t.memWrite a v)) (hi : ∀ t i, P t → P (t.setInput i))
    (ho : ∀ t es, P t → P (t.emit es)) (hp : ∀ t p, P t → P (t.setPending p)) : P (State.walkString k n a s) := by
  induction n generalizing a s with
  | zero => exact hp _ _ h
  | succ n ih =>
    rw [State.walkString_succ]
    have hr : P (s.memRead a).2 := State.polled_induct s a h hm hi
    split
    · exact hp _ _ (ho _ _ hr)
    · exact ih _ _ (ho _ _ hr)

@[simp] theorem State.walkString_regs (k : StringKind) (n : Nat) (a : Word) (s : State) :
    (State.walkString k n a s).regs = s.regs :=
  State.walkString_induct (P := fun t => t.regs = s.regs) k n a s rfl (fun _ _ _ h => h) (fun _ _ h => h)
    (fun _ _ h => h) (fun _ _ h => h)
@[simp] theorem State.walkString_pc (k : StringKind) (n : Nat) (a : Word) (s : State) :
    (State.walkString k n a s).pc = s.pc :=
  State.walkString_induct (P := fun t => t.pc = s.pc) k n a s rfl (fun _ _ _ h => h) (fun _ _ h => h)
    (fun _ _ h => h) (fun _ _ h => h)
@[simp] theorem State.walkString_cond (k : StringKind) (n : Nat) (a : Word) (s : State) :
    (State.walkString k n a s).cond = s.cond :=
  State.walkString_induct (P := fun t => t.cond = s.cond) k n a s rfl (fun _ _ _ h => h) (fun _ _ h => h)
    (fun _ _ h => h) (fun _ _ h => h)
@[simp] theorem State.walkString_run (k : StringKind) (n : Nat) (a : Word) (s : State) :
    (State.walkString k n a s).run = s.run :=
  State.walkString_induct (P := fun t => t.run = s.run) k n a s rfl (fun _ _ _ h => h) (fun _ _ h => h)
    (fun _ _ h => h) (fun _ _ h => h)
@[simp] theorem State.walkString_reports (k : StringKind) (n : Nat) (a : Word) (s : State) :
    (State.walkString k n a s).reports = s.reports :=
  State.walkString_induct (P := fun t => t.reports = s.reports) k n a s rfl (fun _ _ _ h => h) (fun _ _ h => h)
    (fun _ _ h => h) (fun _ _ h => h)
@[simp] theorem State.walkString_cfg (k : StringKind) (n : Nat) (a : Word) (s : State) :
    (State.walkString k n a s).cfg = s.cfg :=
  State.walkString_induct (P := fun t => t.cfg = s.cfg) k n a s rfl (fun _ _ _ h => h) (fun _ _ h => h)
    (fun _ _ h => h) (fun _ _ h => h)
@[simp] theorem State.walkString_reg (k : StringKind) (n : Nat) (a : Word) (s : State) (r : Reg) :
    (State.walkString k n a s).reg r = s.reg r :=
  congrArg (·.get r) (State.walkString_regs k n a s)

theorem State.walkString_wf {s : State} (hs : s.mem.wf = true) (k : StringKind) (n : Nat) (a : Word) :
    (State.walkString k n a s).mem.wf = true :=
  State.walkString_induct (P := fun t => t.mem.wf = true) k n a s hs (fun _ _ _ h => State.memWrite_wf h _ _)
    (fun _ _ h => h) (fun _ _ h => h) (fun _ _ h => h)

/-- The output of a string walk goes on from what was there. -/
theorem State.walkString_output (k : StringKind) (n : Nat) (a : Word) (s : State) :
    s.output <+: (State.walkString k n a s).output :=
  State.walkString_induct (P := fun t => s.output <+: t.output) k n a s (List.prefix_refl _) (fun _ _ _ h => h)
    (fun _ _ h => h) (fun _ _ h => h.trans (List.prefix_append _ _)) (fun _ _ h => h)

/-- Cells that are not keyboard cells are as before a string walk. -/
theorem State.walkString_peek_of_ne {s : State} (hs : s.mem.wf = true) (k : StringKind) (n : Nat) (a : Word) {c : Word}
    (h1 : c ≠ s.cfg.kbsrAddr) (h2 : c ≠ s.cfg.kbdrAddr) : (State.walkString k n a s).peek c = s.peek c := by
  induction n generalizing a s with
  | zero => rfl
  | succ n ih =>
    rw [State.walkString_succ]
    have hp := State.polled_peek_of_ne hs a h1 h2
    split
    · simpa using hp
    · rw [ih (by simpa using State.polled_wf hs a) _ (by simpa using h1) (by simpa using h2)]
      simpa using hp

/-- A string walk only takes from the front of the input. -/
theorem State.walkString_input (k : StringKind) (n : Nat) (a : Word) (s : State) :
    (State.walkString k n a s).input <:+ s.input := by
  induction n generalizing a s with
  | zero => exact List.suffix_refl _
  | succ n ih =>
    have hp : (s.polled a).input <:+ s.input := by
      rcases s.polled_input a with h | h
      · exact h ▸ List.suffix_refl _
      · exact h ▸ List.tail_suffix _
    rw [State.walkString_succ]
    split
    · simpa using hp
    · exact (ih _ _).trans (by simpa using hp)

/-- A string walk ends with nothing in progress, or with the routine itself left unfinished. -/
theorem State.walkString_pending (k : StringKind) (n : Nat) (a : Word) (s : State) :
    (State.walkString k n a s).pending = none ∨ ∃ b, (State.walkString k n a s).pending = some (.string k b) := by
  induction n generalizing a s with
  | zero => exact .inr ⟨a, rfl⟩
  | succ n ih =>
    rw [State.walkString_succ]
    split
    · exact .inl rfl
    · exact ih _ _

end Sys2Proof.Machine
end

