-- ==== Sys2Proof/Laws/Exec.lean ====
section
/-! SUPPORT. Every meaning, routine and step is made of the same few updates of the state, said once: a property that each
update keeps is kept by `exec` and by `step`. Whole-machine rules are proved from these without unfolding the step again. -/

namespace Sys2Proof.Machine

/-- A property of states that every update of the machine keeps. -/
structure KeptByUpdates (P : State → Prop) : Prop where
  setReg : ∀ s r v, P s → P (s.setReg r v)
  setPc : ∀ s v, P s → P (s.setPc v)
  setCond : ∀ s c, P s → P (s.setCond c)
  setRun : ∀ s r, P s → P (s.setRun r)
  setPending : ∀ s p, P s → P (s.setPending p)
  memWrite : ∀ s a v, P s → P (s.memWrite a v)
  setInput : ∀ s i, P s → P (s.setInput i)
  emit : ∀ s es, P s → P (s.emit es)
  report : ∀ s c, P s → P (s.report c)

/-- GETC takes a byte or is held. -/
theorem State.runGetc_cases (s : State) :
    (∃ b rest, takeByte s.input = some (b, rest) ∧
      s.runGetc = ((s.setInput rest).setReg .r0 (zext16 b)).setPending none) ∨
    (takeByte s.input = none ∧ s.runGetc = s.setPending (some .getc)) := by
  match h : takeByte s.input with
  | some (b, rest) => exact .inl ⟨b, rest, rfl, State.runGetc_of_some h⟩
  | none => exact .inr ⟨rfl, State.runGetc_of_none h⟩

/-- IN, its prompt written, takes a byte or is held. -/
theorem State.runIn_cases (s : State) :
    (∃ b rest, takeByte s.input = some (b, rest) ∧
      s.runIn = (((s.setInput rest).emit [.byte b, .flush]).setReg .r0 (zext16 b)).setPending none) ∨
    (takeByte s.input = none ∧ s.runIn = s.setPending (some .inn)) := by
  match h : takeByte s.input with
  | some (b, rest) => exact .inl ⟨b, rest, rfl, State.runIn_of_some h⟩
  | none => exact .inr ⟨rfl, State.runIn_of_none h⟩

/-- A property that the updates of a routine keep is kept by taking the routine up again. -/
theorem State.resume_induct {P : State → Prop} (r : Routine) (s : State) (h : P s)
    (hr : ∀ s v, P s → P (s.setReg .r0 v)) (hp : ∀ s p, P s → P (s.setPending p))
    (hm : ∀ s a v, P s → P (s.memWrite a v)) (hi : ∀ s i, P s → P (s.setInput i)) (ho : ∀ s es, P s → P (s.emit es)) :
    P (State.resume r s) := by
  cases r with
  | getc =>
    show P s.runGetc
    rcases s.runGetc_cases with ⟨b, rest, -, e⟩ | ⟨-, e⟩ <;> rw [e]
    · exact hp _ _ (hr _ _ (hi _ _ h))
    · exact hp _ _ h
  | inn =>
    show P s.runIn
    rcases s.runIn_cases with ⟨b, rest, -, e⟩ | ⟨-, e⟩ <;> rw [e]
    · exact hp _ _ (hr _ _ (ho _ _ (hi _ _ h)))
    · exact hp _ _ h
  | string k a => exact State.walkString_induct k _ a s h hm hi ho hp

/-- A property that every update keeps is kept by every instruction. -/
theorem exec_induct {P : State → Prop} (k : KeptByUpdates P) {i : Instr} {s t : State} (e : exec i s = .next t) (h : P s) :
    P t := by
  have read : ∀ s a, P s → P (State.polled s a) := fun s a hs => s.polled_induct a hs k.memWrite k.setInput
  have define : ∀ s d v, P s → P (State.define s d v) := fun s d v hs => k.setCond _ _ (k.setReg _ _ _ hs)
  have resume : ∀ r s, P s → P (State.resume r s) := fun r s hs =>
    State.resume_induct r s hs (k.setReg · _ ·) k.setPending k.memWrite k.setInput k.emit
  cases i <;> cases e
  case br => split; exacts [h, k.setPc _ _ h]
  case jmp => exact k.setPc _ _ h
  case ret => exact k.setPc _ _ h
  case jsr => exact k.setPc _ _ (k.setReg _ _ _ h)
  case jsrr => exact k.setPc _ _ (k.setReg _ _ _ h)
  case ld => exact define _ _ _ (read _ _ h)
  case ldr => exact define _ _ _ (read _ _ h)
  case ldi => exact define _ _ _ (read _ _ (read _ _ h))
  case st => exact k.memWrite _ _ _ h
  case str => exact k.memWrite _ _ _ h
  case sti => exact k.memWrite _ _ _ (read _ _ h)
  case rti => exact k.setRun _ _ (k.report _ _ h)
  case res => exact k.setRun _ _ (k.report _ _ h)
  case trapGetc => exact resume .getc _ h
  case trapOut => exact k.emit _ _ (k.emit _ _ h)
  case trapPuts => exact resume (.string .puts _) _ h
  case trapIn => exact resume .inn _ (k.emit _ _ h)
  case trapPutsp => exact resume (.string .putsp _) _ h
  case trapHalt => exact k.setRun _ _ (k.emit _ _ (k.emit _ _ h))
  case trapOther => exact h
  all_goals exact define _ _ _ h

/-- What a step that answers a next state did: it took a routine up again, or it executed the word it fetched. -/
theorem step_cases {s t : State} (e : step s = .next t) :
    s.run = .running ∧
      ((∃ r, s.pending = some r ∧ t = State.resume r s) ∨
        (s.pending = none ∧ exec (decode s.fetch.1) s.fetch.2 = .next t)) := by
  unfold step at e
  split at e
  · cases e
  · cases e
  · refine ⟨‹_›, ?_⟩
    split at e
    · cases e
      exact .inl ⟨_, ‹_›, rfl⟩
    · exact .inr ⟨‹_›, e⟩

/-- A property that every update keeps is kept by every step. -/
theorem step_induct {P : State → Prop} (k : KeptByUpdates P) {s t : State} (e : step s = .next t) (h : P s) : P t := by
  obtain ⟨-, ⟨r, -, rfl⟩ | ⟨-, e⟩⟩ := step_cases e
  · exact State.resume_induct r s h (k.setReg · _ ·) k.setPending k.memWrite k.setInput k.emit
  · refine exec_induct k e ?_
    rw [State.fetch_snd]
    exact k.setPc _ _ (s.polled_induct _ h k.memWrite k.setInput)

/-- Every step keeps memory in canonical form. -/
theorem step_keeps_wf {s t : State} (e : step s = .next t) (h : s.mem.wf = true) : t.mem.wf = true :=
  step_induct (P := fun t => t.mem.wf = true)
    { setReg := fun _ _ _ h => h, setPc := fun _ _ h => h, setCond := fun _ _ h => h, setRun := fun _ _ h => h,
      setPending := fun _ _ h => h, memWrite := fun _ _ _ h => State.memWrite_wf h _ _, setInput := fun _ _ h => h,
      emit := fun _ _ h => h, report := fun _ _ h => h } e h

/-- A run of one step more ends with that step. -/
theorem core_run_succ {n : Nat} {s t : Sys2Proof.core.State} (h : Sys2Proof.core.run n s = .next t) :
    Sys2Proof.core.run (n + 1) s = Sys2Proof.core.step t := by
  induction n generalizing s with
  | zero =>
    cases h
    simp only [Host.Core.run]
    cases Sys2Proof.core.step t <;> rfl
  | succ n ih =>
    unfold Host.Core.run at h ⊢
    cases hs : Sys2Proof.core.step s with
    | next u => rw [hs] at h; exact ih h
    | fault r => rw [hs] at h; cases h
    | refused r => rw [hs] at h; cases h

end Sys2Proof.Machine
end

