-- ==== Sys2Proof/Laws/PerInstr.lean ====
section
/-! SUPPORT. Statements made of every instruction, one lemma per constructor. -/

namespace Sys2Proof.Laws.OpcodeField

/-- Bits 15:12 of an instruction's word are its opcode (R91, R96 of spec/30_encoding.md): no operand reaches into them. -/
def Statement (i : Instr) : Prop := bitsAt 12 4 (encode i) = opcode i

/-- A word whose low part lies below bit 12 has in bits 15:12 what is put there. -/
theorem bitsAt_putAt_or (op : BitVec 4) {x : Word} (h : ∀ k, 12 ≤ k → x.getLsbD k = false) :
    bitsAt 12 4 (putAt 12 op ||| x) = op := by
  apply BitVec.eq_of_getLsbD_eq
  intro i hi
  have := h (12 + i) (by omega)
  interval_cases i <;> simp [bitsAt, putAt] at this ⊢ <;> simp [this]

/-- A field put at `lo` has no bit from `lo + n` up. -/
theorem putAt_getLsbD_high {lo n k : Nat} (f : BitVec n) (h : lo + n ≤ k) : (putAt lo f).getLsbD k = false := by
  have : f.getLsbD (k - lo) = false := BitVec.getLsbD_of_ge f _ (by omega)
  simp [putAt, this]

theorem br (n z p : Bool) (off9 : BitVec 9) : Statement (.br n z p off9) := by
  refine bitsAt_putAt_or _ fun k hk => ?_
  simp [operandBits, putAt_getLsbD_high, show ∀ m, m ≤ 12 → m ≤ k by omega]

theorem addR (dst src1 src2 : Reg) : Statement (.addR dst src1 src2) := by
  refine bitsAt_putAt_or _ fun k hk => ?_
  simp [operandBits, putAt_getLsbD_high, show ∀ m, m ≤ 12 → m ≤ k by omega]

theorem addI (dst src1 : Reg) (imm5 : BitVec 5) : Statement (.addI dst src1 imm5) := by
  refine bitsAt_putAt_or _ fun k hk => ?_
  simp [operandBits, putAt_getLsbD_high, show ∀ m, m ≤ 12 → m ≤ k by omega]

theorem ld (dst : Reg) (off9 : BitVec 9) : Statement (.ld dst off9) := by
  refine bitsAt_putAt_or _ fun k hk => ?_
  simp [operandBits, putAt_getLsbD_high, show ∀ m, m ≤ 12 → m ≤ k by omega]

theorem st (src : Reg) (off9 : BitVec 9) : Statement (.st src off9) := by
  refine bitsAt_putAt_or _ fun k hk => ?_
  simp [operandBits, putAt_getLsbD_high, show ∀ m, m ≤ 12 → m ≤ k by omega]

theorem jsrr (base : Reg) : Statement (.jsrr base) := by
  refine bitsAt_putAt_or _ fun k hk => ?_
  simp [operandBits, putAt_getLsbD_high, show ∀ m, m ≤ 12 → m ≤ k by omega]

theorem jsr (off11 : BitVec 11) : Statement (.jsr off11) := by
  refine bitsAt_putAt_or _ fun k hk => ?_
  simp [operandBits, putAt_getLsbD_high, show ∀ m, m ≤ 12 → m ≤ k by omega]

theorem andR (dst src1 src2 : Reg) : Statement (.andR dst src1 src2) := by
  refine bitsAt_putAt_or _ fun k hk => ?_
  simp [operandBits, putAt_getLsbD_high, show ∀ m, m ≤ 12 → m ≤ k by omega]

theorem andI (dst src1 : Reg) (imm5 : BitVec 5) : Statement (.andI dst src1 imm5) := by
  refine bitsAt_putAt_or _ fun k hk => ?_
  simp [operandBits, putAt_getLsbD_high, show ∀ m, m ≤ 12 → m ≤ k by omega]

theorem ldr (dst base : Reg) (off6 : BitVec 6) : Statement (.ldr dst base off6) := by
  refine bitsAt_putAt_or _ fun k hk => ?_
  simp [operandBits, putAt_getLsbD_high, show ∀ m, m ≤ 12 → m ≤ k by omega]

theorem str (src base : Reg) (off6 : BitVec 6) : Statement (.str src base off6) := by
  refine bitsAt_putAt_or _ fun k hk => ?_
  simp [operandBits, putAt_getLsbD_high, show ∀ m, m ≤ 12 → m ≤ k by omega]

theorem rti : Statement (.rti) := by unfold Statement; decide

theorem notR (dst src : Reg) : Statement (.notR dst src) := by
  refine bitsAt_putAt_or _ fun k hk => ?_
  simp [operandBits, putAt_getLsbD_high, show ∀ m, m ≤ 12 → m ≤ k by omega]

theorem ldi (dst : Reg) (off9 : BitVec 9) : Statement (.ldi dst off9) := by
  refine bitsAt_putAt_or _ fun k hk => ?_
  simp [operandBits, putAt_getLsbD_high, show ∀ m, m ≤ 12 → m ≤ k by omega]

theorem sti (src : Reg) (off9 : BitVec 9) : Statement (.sti src off9) := by
  refine bitsAt_putAt_or _ fun k hk => ?_
  simp [operandBits, putAt_getLsbD_high, show ∀ m, m ≤ 12 → m ≤ k by omega]

theorem jmp (base : Reg) : Statement (.jmp base) := by
  refine bitsAt_putAt_or _ fun k hk => ?_
  simp [operandBits, putAt_getLsbD_high, show ∀ m, m ≤ 12 → m ≤ k by omega]

theorem ret : Statement (.ret) := by unfold Statement; decide

theorem res : Statement (.res) := by unfold Statement; decide

theorem lea (dst : Reg) (off9 : BitVec 9) : Statement (.lea dst off9) := by
  refine bitsAt_putAt_or _ fun k hk => ?_
  simp [operandBits, putAt_getLsbD_high, show ∀ m, m ≤ 12 → m ≤ k by omega]

theorem trapGetc : Statement (.trapGetc) := by unfold Statement; decide

theorem trapOut : Statement (.trapOut) := by unfold Statement; decide

theorem trapPuts : Statement (.trapPuts) := by unfold Statement; decide

theorem trapIn : Statement (.trapIn) := by unfold Statement; decide

theorem trapPutsp : Statement (.trapPutsp) := by unfold Statement; decide

theorem trapHalt : Statement (.trapHalt) := by unfold Statement; decide

theorem trapOther (vect : BitVec 8) : Statement (.trapOther vect) := by
  refine bitsAt_putAt_or _ fun k hk => ?_
  simp [operandBits, putAt_getLsbD_high, show ∀ m, m ≤ 12 → m ≤ k by omega]

end Sys2Proof.Laws.OpcodeField
end

