-- ==== Sys2Proof/Laws/Strings.lean ====
section
/-! SUPPORT. The string routines PUTS and PUTSP: what a walk does, from the words it reads; and that a string which ends at all
ends within the words one step reads (`string_ends_within`), so that its routine is wholly executed in its step (R13). -/

namespace Sys2Proof.Machine

/-! ### Sequences of reads -/

/-- The address `m` words above the next one. -/
theorem add_one_add_ofNat (a : Word) (m : Nat) : a + 1 + BitVec.ofNat 16 m = a + BitVec.ofNat 16 (m + 1) := by
  rw [BitVec.add_assoc, BitVec.ofNat_add, BitVec.add_comm 1]
  rfl

theorem readWords_length (n : Nat) (a : Word) (s : State) : (readWords n a s).1.length = n := by
  induction n generalizing a s with
  | zero => rfl
  | succ n ih => rw [readWords_succ, List.length_cons, ih]

/-- A sequence of reads keeps what each read keeps. -/
theorem readWords_induct {P : State → Prop} (hr : ∀ t a, P t → P (State.polled t a)) (n : Nat) (a : Word) (s : State)
    (h : P s) : P (readWords n a s).2 := by
  induction n generalizing a s with
  | zero => exact h
  | succ n ih => exact ih _ _ (hr _ _ h)

/-- A sequence of reads in two parts. -/
theorem readWords_add (m n : Nat) (a : Word) (s : State) :
    readWords (m + n) a s =
      ((readWords m a s).1 ++ (readWords n (a + BitVec.ofNat 16 m) (readWords m a s).2).1,
        (readWords n (a + BitVec.ofNat 16 m) (readWords m a s).2).2) := by
  induction m generalizing a s with
  | zero => simp [readWords]
  | succ m ih =>
    rw [Nat.succ_add, readWords_succ, ih, readWords_succ, add_one_add_ofNat]
    rfl

/-- The frame of a sequence of reads: only the keyboard cells and the input can change. -/
theorem readWords_frame (n : Nat) (a : Word) (s : State) :
    SameCore s (readWords n a s).2 ∧ SameMode s (readWords n a s).2 ∧ (readWords n a s).2.output = s.output :=
  readWords_induct (P := fun t => SameCore s t ∧ SameMode s t ∧ t.output = s.output)
    (fun t a ⟨c, m, o⟩ =>
      ⟨⟨fun r => by rw [State.polled_reg, c.regs], by rw [State.polled_pc, c.pc], by rw [State.polled_cond, c.cond]⟩,
        ⟨by rw [State.polled_run, m.run], by rw [State.polled_pending, m.pending], by rw [State.polled_reports, m.reports],
          by rw [State.polled_cfg, m.cfg]⟩, by rw [State.polled_output, o]⟩)
    n a s ⟨⟨fun _ => rfl, rfl, rfl⟩, ⟨rfl, rfl, rfl, rfl⟩, rfl⟩

theorem readWords_wf {s : State} (hs : s.mem.wf = true) (n : Nat) (a : Word) : (readWords n a s).2.mem.wf = true :=
  readWords_induct (P := fun t => t.mem.wf = true) (fun _ a h => State.polled_wf h a) n a s hs

theorem polled_input_length (s : State) (a : Word) : (s.polled a).input.length ≤ s.input.length := by
  rcases s.polled_input a with h | h <;> rw [h]
  simp

theorem readWords_input_length (n : Nat) (a : Word) (s : State) :
    (readWords n a s).2.input.length ≤ s.input.length :=
  readWords_induct (P := fun t => t.input.length ≤ s.input.length)
    (fun t a h => (polled_input_length t a).trans h) n a s (Nat.le_refl _)

/-! ### What a walk does -/

/-- A walk over words that end with a zero one. -/
theorem State.walkString_ends (k : StringKind) {ws : List Word} {n : Nat} {a : Word} {s u : State} (hn : ws.length < n)
    (hw : ∀ w ∈ ws, w ≠ 0#16) (h : readWords (ws.length + 1) a s = (ws ++ [0#16], u)) :
    State.walkString k n a s = (u.emit ((ws.flatMap k.bytes).map .byte ++ [.flush])).setPending none := by
  induction ws generalizing n a s u with
  | nil =>
    obtain ⟨m, rfl⟩ : ∃ m, n = m + 1 := ⟨n - 1, by simp at hn; omega⟩
    obtain ⟨h0, rfl⟩ : (s.polled a).peek a = 0#16 ∧ s.polled a = u := by simpa [readWords] using h
    rw [State.walkString_succ, State.memRead_fst, if_pos h0]
    rfl
  | cons w ws ih =>
    obtain ⟨m, rfl⟩ : ∃ m, n = m + 1 := ⟨n - 1, by simp at hn; omega⟩
    rw [List.length_cons, readWords_succ, Prod.mk.injEq, List.cons_append, List.cons.injEq] at h
    obtain ⟨⟨h0, h1⟩, h2⟩ := h
    have hr : readWords (ws.length + 1) (a + 1) ((s.polled a).emit ((k.bytes w).map .byte)) =
        (ws ++ [0#16], u.emit ((k.bytes w).map .byte)) := by rw [readWords_emit, h1, h2]
    rw [State.walkString_succ, State.memRead_fst, h0, if_neg (hw w (by simp)), State.outWrites_eq, State.memRead_snd,
      ih (by simpa using hn) (fun x hx => hw x (by simp [hx])) hr]
    simp [State.emit]

/-- A walk over non-zero words only. -/
theorem State.walkString_goes_on (k : StringKind) {ws : List Word} {a : Word} {s u : State} (hw : ∀ w ∈ ws, w ≠ 0#16)
    (h : readWords ws.length a s = (ws, u)) :
    State.walkString k ws.length a s =
      (u.emit ((ws.flatMap k.bytes).map .byte)).setPending (some (.string k (a + BitVec.ofNat 16 ws.length))) := by
  induction ws generalizing a s u with
  | nil =>
    obtain rfl : s = u := by simpa [readWords] using h
    simp [State.walkString_zero, State.emit]
  | cons w ws ih =>
    rw [List.length_cons, readWords_succ, Prod.mk.injEq, List.cons.injEq] at h
    obtain ⟨⟨h0, h1⟩, h2⟩ := h
    have hr : readWords ws.length (a + 1) ((s.polled a).emit ((k.bytes w).map .byte)) =
        (ws, u.emit ((k.bytes w).map .byte)) := by rw [readWords_emit, h1, h2]
    rw [List.length_cons, State.walkString_succ, State.memRead_fst, h0, if_neg (hw w (by simp)), State.outWrites_eq,
      State.memRead_snd, ih (fun x hx => hw x (by simp [hx])) hr,
      add_one_add_ofNat]
    simp [State.emit]

/-! ### A string that ends, ends within the words one step reads -/

/-- No item is left in the input and the ready bit is clear: a read changes nothing any more. -/
structure Quiet (s : State) : Prop where
  wf : s.mem.wf = true
  input : s.input = []
  clear : s.peek s.cfg.kbsrAddr &&& s.cfg.kbsrReady = 0#16

/-- Clearing bits that are clear. -/
theorem and_not_of_clear {v m : Word} (h : v &&& m = 0#16) : v &&& ~~~ m = v := by
  have : v &&& ~~~ m = v ^^^ (v &&& m) := by
    ext i hi
    simp only [BitVec.getElem_and, BitVec.getElem_not, BitVec.getElem_xor]
    cases v[i] <;> cases m[i] <;> rfl
  rw [this, h, BitVec.xor_zero]

theorem Quiet.polled {s : State} (h : Quiet s) (a : Word) : s.polled a = s := by
  unfold State.polled
  split
  · rw [State.poll_of_nil h.input, and_not_of_clear h.clear]
    have : s.mem.write s.cfg.kbsrAddr.toNat (s.peek s.cfg.kbsrAddr) = s.mem := by
      refine Memory.ext_of_read (Memory.write_wf h.wf (BitVec.isLt _)) h.wf fun x _ => ?_
      rw [Memory.read_write h.wf]
      split
      · subst x; rfl
      · rfl
    rw [State.memWrite, this]
  · rfl

/-- In a quiet state reads read the cells and change nothing. -/
theorem Quiet.reads {s : State} (h : Quiet s) (n : Nat) (a : Word) :
    readWords n a s = ((List.range n).map fun j => s.peek (a + BitVec.ofNat 16 j), s) := by
  induction n with
  | zero => rfl
  | succ n ih =>
    rw [readWords_add, ih, List.range_succ, List.map_append]
    simp only [readWords_succ, h.polled]
    rfl

/-- With the input at its end, a poll leaves a quiet state. -/
theorem poll_quiet {s : State} (hs : s.mem.wf = true) (hi : s.input = []) : Quiet s.poll := by
  rw [State.poll_of_nil hi]
  refine ⟨State.memWrite_wf hs _ _, hi, ?_⟩
  show (s.memWrite s.cfg.kbsrAddr _).peek s.cfg.kbsrAddr &&& s.cfg.kbsrReady = 0#16
  rw [State.memWrite_peek hs, if_pos rfl]
  ext i hi
  simp only [BitVec.getElem_and, BitVec.getElem_not, BitVec.getElem_zero]
  cases (s.peek s.cfg.kbsrAddr)[i] <;> cases s.cfg.kbsrReady[i] <;> rfl

/-- A lap of memory reads the status cell: some reads, the poll, and the rest. -/
theorem lap_split (a : Word) (s : State) : ∃ (j m : Nat) (b : Word),
    (readWords 65536 a s).2 = (readWords m b (readWords j a s).2.poll).2 := by
  refine ⟨(s.cfg.kbsrAddr - a).toNat, 65535 - (s.cfg.kbsrAddr - a).toNat, s.cfg.kbsrAddr + 1, ?_⟩
  generalize hj : (s.cfg.kbsrAddr - a).toNat = j
  have hlt : j < 65536 := hj ▸ BitVec.isLt _
  have ha : a + BitVec.ofNat 16 j = s.cfg.kbsrAddr := by
    rw [← hj, BitVec.ofNat_toNat, BitVec.setWidth_eq, BitVec.add_comm, BitVec.sub_add_cancel]
  have hc : (readWords j a s).2.cfg = s.cfg := (readWords_frame j a s).2.1.cfg
  have hp : (readWords j a s).2.polled s.cfg.kbsrAddr = (readWords j a s).2.poll := by
    rw [← hc, State.polled_kbsr]
  have hn : 65536 = j + (65535 - j + 1) := by omega
  rw [hn, readWords_add, readWords_succ, ha, hp]

/-- A lap takes an item of the input, if there is one. -/
theorem lap_input (a : Word) (s : State) : (readWords 65536 a s).2.input.length ≤ s.input.length - 1 := by
  obtain ⟨j, m, b, e⟩ := lap_split a s
  rw [e]
  refine (readWords_input_length _ _ _).trans ?_
  have hj := readWords_input_length j a s
  have hp : (readWords j a s).2.poll.input.length ≤ (readWords j a s).2.input.length - 1 := by
    obtain ⟨b, rest, hi, he⟩ | ⟨rest, hi, he⟩ := (readWords j a s).2.poll_cases <;> rw [he]
    · simp [hi]
    · rcases hi with hi | ⟨hi, rfl⟩ <;> simp [hi]
  omega

/-- A lap with the input at its end leaves a quiet state. -/
theorem lap_quiet {s : State} (hs : s.mem.wf = true) (hi : s.input = []) (a : Word) : Quiet (readWords 65536 a s).2 := by
  obtain ⟨j, m, b, e⟩ := lap_split a s
  have hn : (readWords j a s).2.input = [] := by
    have := readWords_input_length j a s
    rw [hi] at this
    exact List.eq_nil_of_length_eq_zero (Nat.le_zero.mp this)
  rw [e, (poll_quiet (readWords_wf hs j a) hn).reads]
  exact poll_quiet (readWords_wf hs j a) hn

/-- After one lap for every item of the input, and one more, the state is quiet. -/
theorem laps_quiet (n : Nat) {s : State} (hs : s.mem.wf = true) (hn : s.input.length ≤ n) (a : Word) :
    Quiet (readWords (65536 * (n + 1)) a s).2 := by
  induction n generalizing s a with
  | zero =>
    rw [Nat.zero_add, Nat.mul_one]
    exact lap_quiet hs (List.eq_nil_of_length_eq_zero (Nat.le_zero.mp hn)) a
  | succ n ih =>
    have hl := lap_input a s
    rw [show 65536 * (n + 1 + 1) = 65536 + 65536 * (n + 1) by omega, readWords_add]
    dsimp only
    have hl' : (readWords 65536 a s).2.input.length ≤ n := by omega
    exact ih (s := (readWords 65536 a s).2) (readWords_wf hs 65536 a) hl' (a + BitVec.ofNat 16 65536)

/-- Every cell is read in a lap. -/
theorem Quiet.cells_of_lap {s : State} (h : Quiet s) (a : Word) (hw : ∀ w ∈ (readWords 65536 a s).1, w ≠ 0#16) (x : Word) :
    s.peek x ≠ 0#16 := by
  refine hw _ ?_
  rw [h.reads]
  dsimp only
  refine List.mem_map.mpr ⟨(x - a).toNat, List.mem_range.mpr (BitVec.isLt _), ?_⟩
  rw [BitVec.ofNat_toNat, BitVec.setWidth_eq, BitVec.add_comm, BitVec.sub_add_cancel]

/-- If the words one step reads are all non-zero, the string has no zero word however far it is read. -/
theorem string_endless {s : State} (hs : s.mem.wf = true) (a : Word)
    (hw : ∀ w ∈ (readWords (walkWords s) a s).1, w ≠ 0#16) (n : Nat) : ∀ w ∈ (readWords n a s).1, w ≠ 0#16 := by
  have hq := laps_quiet s.input.length hs (Nat.le_refl _) a
  rw [show walkWords s = 65536 * (s.input.length + 1) + 65536 by unfold walkWords; omega, readWords_add] at hw
  have hc := hq.cells_of_lap _ fun w h => hw w (List.mem_append_right _ h)
  have more : ∀ m, ∀ w ∈ (readWords (65536 * (s.input.length + 1) + m) a s).1, w ≠ 0#16 := by
    intro m w h
    rw [readWords_add] at h
    rcases List.mem_append.mp h with h | h
    · exact hw w (List.mem_append_left _ h)
    · rw [hq.reads] at h
      obtain ⟨j, _, rfl⟩ := List.mem_map.mp h
      exact hc _
  intro w h
  refine more n w ?_
  rw [Nat.add_comm, readWords_add]
  exact List.mem_append_left _ h

/-- A string that ends at all ends within the words one step reads. -/
theorem string_ends_within {s u : State} (hs : s.mem.wf = true) {a : Word} {ws : List Word} (hw : ∀ w ∈ ws, w ≠ 0#16)
    (h : readWords (ws.length + 1) a s = (ws ++ [0#16], u)) : ws.length < walkWords s := by
  by_contra hn
  refine string_endless hs a (fun w hm => ?_) (ws.length + 1) 0#16 (by rw [h]; simp) rfl
  obtain ⟨m, hm'⟩ := Nat.exists_eq_add_of_le (Nat.le_of_not_lt hn)
  have hall : readWords (walkWords s + (m + 1)) a s = (ws ++ [0#16], u) := by rw [← h, hm', Nat.add_assoc]
  rw [readWords_add, Prod.mk.injEq] at hall
  have hpre : (readWords (walkWords s) a s).1 = ws.take (walkWords s) := by
    have := congrArg (List.take (walkWords s)) hall.1
    rwa [List.take_left' (readWords_length _ _ _), List.take_append_of_le_length (Nat.le_of_not_lt hn)] at this
  exact hw w (List.mem_of_mem_take (hpre ▸ hm))

/-- What PUTS or PUTSP does on a string that ends: the whole of it in one step (R13). -/
theorem State.runString_ends (k : StringKind) {ws : List Word} {a : Word} {s u : State} (hs : s.mem.wf = true)
    (hw : ∀ w ∈ ws, w ≠ 0#16) (h : readWords (ws.length + 1) a s = (ws ++ [0#16], u)) :
    s.runString k a = (u.emit ((ws.flatMap k.bytes).map .byte ++ [.flush])).setPending none :=
  State.walkString_ends k (string_ends_within hs hw h) hw h

/-- A whole number of laps comes back to where it began. -/
theorem add_walkWords (s : State) (a : Word) : a + BitVec.ofNat 16 (walkWords s) = a := by
  have : BitVec.ofNat 16 (walkWords s) = 0#16 := BitVec.eq_of_toNat_eq (by simp [walkWords])
  rw [this, BitVec.add_zero]

/-- What PUTS or PUTSP does when the words it reads in one step are all non-zero. -/
theorem State.runString_goes_on (k : StringKind) {ws : List Word} {a : Word} {s u : State} (hw : ∀ w ∈ ws, w ≠ 0#16)
    (h : readWords (walkWords s) a s = (ws, u)) :
    s.runString k a = (u.emit ((ws.flatMap k.bytes).map .byte)).setPending (some (.string k a)) := by
  have hl : ws.length = walkWords s := by rw [← readWords_length (walkWords s) a s, h]
  have := State.walkString_goes_on k hw (hl.symm ▸ h)
  rwa [hl, add_walkWords] at this

end Sys2Proof.Machine
end

