-- ==== Sys2Proof/Tests/Slice0.lean ====
section
/-! SUPPORT. Tests of the model: the checks of WellFormed, decoding of words written out from the spec's encodings, single
steps with the expected values of spec/95_test_vectors.md (each test names its vector), and for every statement with
hypotheses a witness that meets them. -/

namespace Sys2Proof.Machine.Tests

/-! ### Helpers -/

/-- The state of the vectors' conventions: reset, the pc moved, the word placed there. -/
def placed (pc word : Word) : State := (State.reset.setPc pc).withFetchWord 16 word.toNat

/-- Registers set. -/
def withRegs (s : State) (l : List (Reg × Word)) : State := l.foldl (fun t p => t.setReg p.1 p.2) s

/-- Cells set. -/
def withCells (s : State) (l : List (Word × Word)) : State := l.foldl (fun t p => t.memWrite p.1 p.2) s

/-- Bytes available from the start. -/
def withInput (s : State) (l : List Byte) : State := s.setInput (l.map .byte)

/-- A predicate holds of the state after one step. -/
def stepsTo (s : State) (p : State → Bool) : Bool :=
  match step s with
  | .next t => p t
  | .fault _ => false
  | .refused _ => false

/-- The output of bytes and then a flush. -/
def flushed (l : List Byte) : List OutEvent := l.map .byte ++ [.flush]

/-! ### WellFormed refuses what no word stands for -/

theorem test_wf_jmp_r7 : wellFormed (.jmp .r7) = false := by decide
theorem test_wf_trap_first_routine : wellFormed (.trapOther 0x20) = false := by decide
theorem test_wf_trap_last_routine : wellFormed (.trapOther 0x25) = false := by decide
theorem test_wf_trap_neighbours : wellFormed (.trapOther 0x1F) = true ∧ wellFormed (.trapOther 0x26) = true := by decide

/-! ### Decoding: words written out bit by bit from R92, R96 and R97 -/

theorem test_decode_operate :
    decode 0b0001000001100010#16 = .addI .r0 .r1 2 ∧ decode 0b0001010000000001#16 = .addR .r2 .r0 .r1 ∧
    decode 0b0101000001100001#16 = .andI .r0 .r1 1 ∧ decode 0b0101011001000010#16 = .andR .r3 .r1 .r2 ∧
    decode 0b1001001010111111#16 = .notR .r1 .r2 := by decide
theorem test_decode_control :
    decode 0b0000001111111101#16 = .br false false true 0x1FD ∧ decode 0b0000100000010000#16 = .br true false false 0x010 ∧
    decode 0b0000010000010000#16 = .br false true false 0x010 ∧ decode 0b1100000010000000#16 = .jmp .r2 ∧
    decode 0b1100000111000000#16 = .ret ∧ decode 0b0100110000000000#16 = .jsr 0x400 ∧
    decode 0b0100000011000000#16 = .jsrr .r3 := by decide
theorem test_decode_load :
    decode 0b0010001000000101#16 = .ld .r1 5 ∧ decode 0b1010010000000000#16 = .ldi .r2 0 ∧
    decode 0b0110010110111111#16 = .ldr .r2 .r6 0x3F ∧ decode 0b1110001111111111#16 = .lea .r1 0x1FF := by decide
theorem test_decode_store :
    decode 0b0011001111111111#16 = .st .r1 0x1FF ∧ decode 0b1011001000000011#16 = .sti .r1 3 ∧
    decode 0b0111000110000001#16 = .str .r0 .r6 1 := by decide
theorem test_decode_trap :
    decode 0b1111000000100000#16 = .trapGetc ∧ decode 0b1111000000100001#16 = .trapOut ∧
    decode 0b1111000000100010#16 = .trapPuts ∧ decode 0b1111000000100011#16 = .trapIn ∧
    decode 0b1111000000100100#16 = .trapPutsp ∧ decode 0b1111000000100101#16 = .trapHalt ∧
    decode 0b1111000000011111#16 = .trapOther 0x1F ∧ decode 0b1111000011111111#16 = .trapOther 0xFF := by decide
theorem test_decode_reserved : decode 0b1000000000000000#16 = .rti ∧ decode 0b1101000000000000#16 = .res := by decide
/-- Ignored bits (R110; V-O8, V-N11, V-J2, V-J10, V-A4, V-T16). -/
theorem test_decode_ignored :
    decode 0x1419 = .addR .r2 .r0 .r1 ∧ decode 0x9280 = .notR .r1 .r2 ∧ decode 0xCEBF = .jmp .r2 ∧
    decode 0x46FF = .jsrr .r3 ∧ decode 0xDABC = .res ∧ decode 0xFF25 = .trapHalt := by decide
/-- The encodings of the spec's programs P2, P3 and P7. -/
theorem test_encode_words :
    encode (.addI .r1 .r1 0x1F) = 0x127F ∧ encode (.br false false true 0x1FD) = 0x03FD ∧
    encode (.ldr .r0 .r6 0) = 0x6180 ∧ encode (.jsr 2) = 0x4802 ∧ encode (.notR .r0 .r0) = 0x903F ∧
    encode .ret = 0xC1C0 ∧ encode (.sti .r7 1) = 0xBE01 ∧ encode .trapHalt = 0xF025 := by decide
theorem test_decodeTableWord : decodeTableWord 16 0x1062 = some (.addI .r0 .r1 2) := by decide
theorem test_decodeWords_empty : decodeWords [] = .error .noWord := by rfl

/-! ### Single steps -/

/-- V-O1. -/
theorem test_addI : stepsTo (withRegs (placed 0x3000 0x1062) [(.r1, 3)])
    (fun t => t.reg .r0 == 5 && t.cond == 0b001#3 && t.pc == 0x3001) = true := by decide
/-- V-O5: the carry out of bit 15 is lost. -/
theorem test_addI_wraps : stepsTo (withRegs (placed 0x3000 0x1FEF) [(.r7, 0xFFF1)])
    (fun t => t.reg .r7 == 0 && t.cond == 0b010#3) = true := by decide
/-- V-O2. -/
theorem test_addR : stepsTo (withRegs (placed 0x3000 0x1401) [(.r0, 0x7FFF), (.r1, 1)])
    (fun t => t.reg .r2 == 0x8000 && t.cond == 0b100#3) = true := by decide
/-- V-N5. -/
theorem test_andI : stepsTo (withRegs (placed 0x3000 0x52B0) [(.r2, 0xABCD)])
    (fun t => t.reg .r1 == 0xABC0 && t.cond == 0b100#3) = true := by decide
/-- V-N2. -/
theorem test_andR : stepsTo (withRegs (placed 0x3000 0x5642) [(.r1, 0xFF00), (.r2, 0x8F0F)])
    (fun t => t.reg .r3 == 0x8F00 && t.cond == 0b100#3) = true := by decide
/-- V-N10. -/
theorem test_not : stepsTo (withRegs (placed 0x3000 0x92BF) [(.r2, 0x8000)])
    (fun t => t.reg .r1 == 0x7FFF && t.cond == 0b001#3) = true := by decide
/-- V-B6: below zero the target wraps. -/
theorem test_br_taken : stepsTo ((placed 0x0010 0x0F00).setCond 0b100)
    (fun t => t.pc == 0xFF11 && t.cond == 0b100#3) = true := by decide
/-- V-B1, mask 101 with Z. -/
theorem test_br_not_taken : stepsTo ((placed 0x3000 0x0A10).setCond 0b010) (fun t => t.pc == 0x3001) = true := by decide
/-- V-J1. -/
theorem test_jmp : stepsTo (withRegs (placed 0x3000 0xC080) [(.r2, 0x4000)])
    (fun t => t.pc == 0x4000 && t.reg .r7 == 0) = true := by decide
/-- V-J3. -/
theorem test_ret : stepsTo (withRegs (placed 0x3008 0xC1C0) [(.r7, 0x3003)])
    (fun t => t.pc == 0x3003 && t.reg .r7 == 0x3003) = true := by decide
/-- V-J5. -/
theorem test_jsr : stepsTo (placed 0x3000 0x4C00) (fun t => t.reg .r7 == 0x3001 && t.pc == 0x2C01) = true := by decide
/-- V-J8. -/
theorem test_jsrr : stepsTo (withRegs (placed 0x3010 0x40C0) [(.r3, 0x5000)])
    (fun t => t.reg .r7 == 0x3011 && t.pc == 0x5000) = true := by decide
/-- V-J9: R7 is written before the base is read. -/
theorem test_jsrr_r7 : stepsTo (withRegs (placed 0x3010 0x41C0) [(.r7, 0x5000)])
    (fun t => t.reg .r7 == 0x3011 && t.pc == 0x3011) = true := by decide
/-- V-L4: the address wraps. -/
theorem test_ld : stepsTo (withCells (placed 0xFF80 0x26FF) [(0x0080, 0x7FFF)])
    (fun t => t.reg .r3 == 0x7FFF && t.cond == 0b001#3 && t.pc == 0xFF81) = true := by decide
/-- V-K4: reading the status cell with a byte there. -/
theorem test_ld_kbsr : stepsTo (withInput (withCells (placed 0xFDFF 0x2000) [(0xFE00, 0x1234), (0xFE02, 0x0041)]) [0x62])
    (fun t => t.peek 0xFE00 == 0x8000 && t.peek 0xFE02 == 0x0062 && t.reg .r0 == 0x8000 && t.cond == 0b100#3 &&
      t.input == []) = true := by decide
/-- V-L5. -/
theorem test_ldi : stepsTo (withCells (placed 0x3000 0xA004) [(0x3005, 0x4000), (0x4000, 0xBEEF)])
    (fun t => t.reg .r0 == 0xBEEF && t.cond == 0b100#3) = true := by decide
/-- V-K7: the pointer is the status cell. -/
theorem test_ldi_kbsr : stepsTo (withInput (withCells (placed 0xFDFF 0xA000) [(0x8000, 0x0BAD)]) [0x6B])
    (fun t => t.peek 0xFE00 == 0x8000 && t.peek 0xFE02 == 0x006B && t.reg .r0 == 0x0BAD) = true := by decide
/-- V-L10: base and destination the same register. -/
theorem test_ldr : stepsTo (withRegs (withCells (placed 0x3000 0x6240) [(0x4000, 0x4001)]) [(.r1, 0x4000)])
    (fun t => t.reg .r1 == 0x4001 && t.cond == 0b001#3) = true := by decide
/-- V-L8: offset -1. -/
theorem test_ldr_negative : stepsTo ((withRegs (placed 0x3000 0x65BF) [(.r6, 0x3008), (.r2, 7)]).setCond 0b001)
    (fun t => t.reg .r2 == 0 && t.cond == 0b010#3) = true := by decide
/-- V-L14: an address with bit 15 set. -/
theorem test_lea : stepsTo (placed 0x7FFF 0xE800)
    (fun t => t.reg .r4 == 0x8000 && t.cond == 0b100#3 && t.pc == 0x8000) = true := by decide
/-- V-K9: the address of the status cell, no poll. -/
theorem test_lea_kbsr : stepsTo (withInput (placed 0xFDFF 0xE000) [0x78])
    (fun t => t.reg .r0 == 0xFE00 && t.input == [.byte 0x78]) = true := by decide
/-- V-S1: COND unchanged. -/
theorem test_st : stepsTo ((withRegs (withCells (placed 0x3005 0x3002) [(0x3008, 0x9999)]) [(.r0, 0x000F)]).setCond 0b010)
    (fun t => t.peek 0x3008 == 0x000F && t.cond == 0b010#3 && t.pc == 0x3006) = true := by decide
/-- V-K6: a store to the status cell does not poll. -/
theorem test_st_kbsr : stepsTo (withInput (withRegs (placed 0xFDFF 0x3200) [(.r1, 0x5555)]) [0x71])
    (fun t => t.peek 0xFE00 == 0x5555 && t.input == [.byte 0x71]) = true := by decide
/-- V-S5: STI overwrites its own pointer. -/
theorem test_sti : stepsTo (withRegs (withCells (placed 0x3000 0xB200) [(0x3001, 0x3001)]) [(.r1, 0x7777)])
    (fun t => t.peek 0x3001 == 0x7777) = true := by decide
/-- V-K8: the pointer is the status cell, nothing to read. -/
theorem test_sti_kbsr : stepsTo (withRegs (withCells (placed 0xFDFF 0xB600) [(0x0000, 0x1111)]) [(.r3, 0x00C3)])
    (fun t => t.peek 0x0000 == 0x00C3 && t.peek 0xFE00 == 0) = true := by decide
/-- V-S7: the address wraps. -/
theorem test_str : stepsTo (withRegs (placed 0x3000 0x707F) [(.r0, 0x00AA)])
    (fun t => t.peek 0xFFFF == 0x00AA && t.pc == 0x3001) = true := by decide
/-- V-T2: a zero byte sets no flag. -/
theorem test_getc : stepsTo ((withInput (withRegs (placed 0x3000 0xF020) [(.r0, 0x1234)]) [0x00, 0xFF]).setCond 0b001)
    (fun t => t.reg .r0 == 0 && t.input == [.byte 0xFF] && t.cond == 0b001#3 && t.output == []) = true := by decide
/-- V-T4: held, the pc incremented. -/
theorem test_getc_held : stepsTo (placed 0x3000 0xF020)
    (fun t => t.pc == 0x3001 && t.pending == some .getc && t.run == .running) = true := by decide
/-- V-T9. -/
theorem test_out : stepsTo (withRegs (placed 0x3000 0xF021) [(.r0, 0x1241)])
    (fun t => t.output == flushed [0x41]) = true := by decide
/-- V-T8: the walk wraps. -/
theorem test_puts : stepsTo (withRegs (withCells (placed 0x3000 0xF022) [(0xFFFF, 0x0041), (0x0000, 0x0042)])
    [(.r0, 0xFFFF)]) (fun t => t.output == flushed [0x41, 0x42] && t.reg .r0 == 0xFFFF && t.pending == none) = true := by
  decide
/-- V-T22: across the keyboard cells with a byte there. -/
theorem test_puts_kbsr : stepsTo (withInput (withRegs (withCells (placed 0x3000 0xF022) [(0xFDFF, 0x0041), (0xFE01, 0x0043)])
    [(.r0, 0xFDFF)]) [0x51]) (fun t => t.output == flushed [0x41, 0x00, 0x43, 0x51] && t.input == []) = true := by decide
/-- V-T13. -/
theorem test_in : stepsTo ((withInput (placed 0x3000 0xF023) [0x7A]).setCond 0b010)
    (fun t => t.output == flushed [0x45, 0x6E, 0x74, 0x65, 0x72, 0x20, 0x61, 0x20, 0x63, 0x68, 0x61, 0x72, 0x61, 0x63, 0x74,
      0x65, 0x72, 0x3A, 0x20, 0x7A] && t.reg .r0 == 0x007A && t.cond == 0b010#3) = true := by decide
/-- V-T14: held with the prompt written and not flushed. -/
theorem test_in_held : stepsTo (placed 0x3000 0xF023)
    (fun t => t.output.length == 19 && t.output.getLast? == some (.byte 0x20) && t.pending == some .inn) = true := by decide
/-- V-T12: a zero low byte is written, a zero high byte is not. -/
theorem test_putsp : stepsTo (withRegs (withCells (placed 0x3000 0xF024) [(0x4000, 0x4100), (0x4001, 0x0042),
    (0x4002, 0x4443)]) [(.r0, 0x4000)]) (fun t => t.output == flushed [0x00, 0x41, 0x42, 0x43, 0x44]) = true := by decide
/-- V-T15. -/
theorem test_halt : stepsTo ((placed 0x3002 0xF025).setCond 0b001)
    (fun t => t.output == flushed [0x48, 0x41, 0x4C, 0x54, 0x0A] && t.run == .halted && t.pc == 0x3003 &&
      t.cond == 0b001#3) = true := by decide
/-- V-T18: an undefined vector changes nothing but the pc. -/
theorem test_trap_other :
    stepsTo (placed 0x3000 0xF026) (fun t => t == (placed 0x3000 0xF026).setPc 0x3001) = true := by decide
/-- V-A1. -/
theorem test_rti : stepsTo ((withRegs (placed 0x3000 0x8000) [(.r0, 1)]).setCond 0b001)
    (fun t => t.run == .aborted && t.pc == 0x3001 && t.reg .r0 == 1 && t.cond == 0b001#3 && t.output == []) = true := by
  decide
/-- V-A4: the pc wraps. -/
theorem test_res : stepsTo (placed 0xFFFF 0xDABC) (fun t => t.run == .aborted && t.pc == 0x0000) = true := by decide
/-- V-K10: a fetch at the status cell polls it. -/
theorem test_fetch_kbsr : stepsTo (withInput (State.reset.setPc 0xFE00) [0x78])
    (fun t => t.peek 0xFE00 == 0x8000 && t.peek 0xFE02 == 0x0078 && t.run == .aborted && t.pc == 0xFE01) = true := by decide
/-- V-A5, V-A6. -/
theorem test_no_step : stepsTo (State.reset.setRun .halted) (fun _ => true) = false ∧
    stepsTo (State.reset.setRun .aborted) (fun _ => true) = false := by decide

/-! ### Reset and images -/

/-- V-I0. -/
theorem test_reset : State.reset.pc = 0x3000 ∧ State.reset.cond = 0b000 ∧ State.reset.run = .running ∧
    State.reset.peek 0x3000 = 0 := by decide
/-- V-I1. -/
theorem test_load : ((State.reset.loadImage [0x30, 0x00, 0x12, 0x34, 0xAB, 0xCD]).map State.mem) =
    some [(0x3000, 0x1234), (0x3001, 0xABCD)] := by decide
/-- V-I2: no wrap at the top of memory. -/
theorem test_load_top : ((State.reset.loadImage [0xFF, 0xFF, 0x11, 0x11, 0x22, 0x22]).map State.mem) =
    some [(0xFFFF, 0x1111)] := by decide
/-- V-I3: the later image wins. -/
theorem test_boot_two_images :
    (boot defaultConfig [[0x30, 0, 0, 1, 0, 2, 0, 3], [0x30, 1, 0xAA, 0xAA]]).map State.mem =
    some [(0x3000, 0x0001), (0x3001, 0xAAAA), (0x3002, 0x0003)] := by decide
/-- V-I5: an odd byte is ignored, a short file is a failure. -/
theorem test_load_odd : ((State.reset.loadImage [0x30, 0x00, 0x12, 0x34, 0xAB]).map State.mem) = some [(0x3000, 0x1234)] ∧
    boot defaultConfig [[0x30]] = none := by decide

/-! ### Witnesses: what the hypotheses of each statement are met by -/

/-- Two bytes to come, both available. -/
def twoBytes : State := withInput State.reset [0x41, 0x42]

/-- `"Hi"` at 0x3003, R0 pointing at it. -/
def hi : State := withRegs (withCells State.reset [(0x3003, 0x0048), (0x3004, 0x0069)]) [(.r0, 0x3003)]

/-- Held in a routine with no byte to come but a quiet mark. -/
def heldIn (r : Routine) : State := (State.reset.setInput [.quiet]).setPending (some r)

theorem witness_DecodeInvertsEncode : wellFormed (.ldr .r2 .r6 0x3F) = true ∧ wellFormed (.jmp .r6) = true ∧
    wellFormed (.trapOther 0x1F) = true ∧ wellFormed (.trapOther 0x26) = true := by decide
theorem witness_IgnoredBitsDoNotMatter :
    0x1419#16 &&& significantBits (decode 0x1401) = 0x1401#16 &&& significantBits (decode 0x1401) ∧ 0x1419#16 ≠ 0x1401#16 := by
  decide
theorem witness_SignExtensionLaws : (1 ≤ 1 ∧ 1 ≤ 16) ∧ (1 ≤ 16 ∧ 16 ≤ 16) ∧ (0x0F#5).getLsbD (5 - 1) = false ∧
    (0x0F#5).toNat < 2 ^ (5 - 1) ∧ ¬ (0x10#5).toNat < 2 ^ (5 - 1) := by decide
theorem witness_SetCCFollowsTheSign : (0x8000#16).getLsbD 15 = true ∧ (0x7FFF#16 ≠ 0 ∧ (0x7FFF#16).getLsbD 15 = false) := by
  decide
theorem witness_MemReadPollsTheStatusCellOnly : twoBytes.mem.wf = true ∧ 0xFE01#16 ≠ twoBytes.cfg.kbsrAddr ∧
    0xFE00#16 = twoBytes.cfg.kbsrAddr ∧ twoBytes.inAvail.1 = true ∧
    (State.reset.mem.wf = true ∧ 0xFE00#16 = State.reset.cfg.kbsrAddr ∧ State.reset.inAvail.1 = false) := by decide
theorem witness_AvailableInputCanBeRead : twoBytes.inAvail.1 = true := by decide
theorem witness_MemWriteStoresOneCell : hi.mem.wf = true := by decide
theorem witness_EqualReadsMeanEqualMemory : ∃ m m' : Memory, m ≠ [] ∧ m.wf = true ∧ m'.wf = true ∧
    ∀ a : Word, m.read a.toNat = m'.read a.toNat := ⟨hi.mem, hi.mem, by decide, by decide, by decide, fun _ => rfl⟩
theorem witness_TwoPollsLoseACharacter :
    twoBytes.mem.wf = true ∧ twoBytes.input = .byte 0x41 :: .byte 0x42 :: [] := by decide
theorem witness_GetcDoesNotSeeALatchedByte :
    twoBytes.mem.wf = true ∧ twoBytes.input = .byte 0x41 :: .byte 0x42 :: [] := by decide
theorem witness_ImageLoadsAtItsOrigin : State.reset.mem.wf = true ∧
    (0 < [0x1111#16, 0x2222#16].length ∧ (0xFFFF#16).toNat + 0 < 65536) ∧ (0x2FFF#16).toNat < (0x3000#16).toNat ∧
    (0x3000#16).toNat + [0x1234#16, 0xABCD#16].length ≤ (0x3002#16).toNat := by decide
theorem witness_BootStartsAtPcStart : ∃ s, boot defaultConfig [[0x40, 0x00, 0xF0, 0x25]] = some s :=
  ⟨_, rfl⟩
theorem witness_ImmediateAndRegisterModeAgree :
    (withRegs State.reset [(.r2, 0xFFFF)]).reg .r2 = sext (0x1F#5) := by decide
theorem witness_BrWithNoFlagNamedOrSetFallsThrough :
    State.reset.cond = 0b000#3 ∧ oneFlag (State.reset.setCond 0b100).cond := ⟨rfl, .inr (.inr rfl)⟩
theorem witness_LdAndLdrLoadTheCell : (State.reset.setPc 0xFE00).pc + sext (1#9) ≠ State.reset.cfg.kbsrAddr ∧
    (withRegs State.reset [(.r6, 0xFE02)]).reg .r6 + sext (0x3F#6) ≠ State.reset.cfg.kbsrAddr := by decide
theorem witness_LdiLoadsThroughThePointer :
    let s := withCells State.reset [(0x3005, 0x4000)]
    s.pc + sext (5#9) ≠ s.cfg.kbsrAddr ∧ s.peek (s.pc + sext (5#9)) ≠ s.cfg.kbsrAddr := by decide
theorem witness_StAndStrStoreOneCell : hi.mem.wf = true := by decide
theorem witness_StiStoresThroughThePointer : hi.mem.wf = true ∧ hi.pc + sext (3#9) ≠ hi.cfg.kbsrAddr := by decide
theorem witness_GetcReadsOneByte :
    takeByte (State.reset.setInput [.quiet, .byte 0x41, .quiet]).input = some (0x41, [.quiet]) := by decide
theorem witness_InPromptsReadsAndEchoes : takeByte twoBytes.input = some (0x41, [.byte 0x42]) := by decide
theorem witness_ReadsWithoutInputAreHeld :
    takeByte State.reset.input = none ∧ takeByte (State.reset.setInput [.quiet]).input = none := by decide
theorem witness_SuppliedInputLiftsAHold : (heldIn .getc).run = .running ∧ takeByte (heldIn .getc).input = none ∧
    (heldIn .getc).pending = some .getc ∧ (heldIn .inn).run = .running ∧ takeByte (heldIn .inn).input = none ∧
    (heldIn .inn).pending = some .inn := by decide
/-- Reading the string and its zero word leaves the state as it is: no address is that of the status cell. -/
theorem hi_reads : readWords 3 (hi.reg .r0) hi = ([0x0048#16, 0x0069#16, 0#16], hi) := by decide
theorem witness_StringRoutinesWriteUpToTheFirstZeroWord : ∃ (ws : List Word) (u : State), hi.mem.wf = true ∧ ws ≠ [] ∧
    (∀ w ∈ ws, w ≠ 0#16) ∧ readWords (ws.length + 1) (hi.reg .r0) hi = (ws ++ [0#16], u) :=
  ⟨[0x0048#16, 0x0069#16], hi, by decide, by decide, by simp, hi_reads⟩
theorem witness_PutsPrintsAStringInMemory : 2 < 65536 ∧
    (∀ k, k < 2 → hi.peek (hi.reg .r0 + BitVec.ofNat 16 k) ≠ 0#16) ∧ hi.peek (hi.reg .r0 + BitVec.ofNat 16 2) = 0#16 ∧
    (∀ k, k ≤ 2 → hi.reg .r0 + BitVec.ofNat 16 k ≠ hi.cfg.kbsrAddr) ∧
    State.reset.peek (State.reset.reg .r0 + BitVec.ofNat 16 0) = 0#16 ∧
    ∀ k, k ≤ 0 → State.reset.reg .r0 + BitVec.ofNat 16 k ≠ State.reset.cfg.kbsrAddr := by decide

/-- The parameters with every cell 0x0041 at reset. -/
def endlessConfig : Config := { defaultConfig with memReset := 0x0041 }

/-- Every cell holds 0x0041, the keyboard cells too, and no byte comes. -/
def endless : State := State.resetWith endlessConfig

theorem resetWith_mem (c : Config) : (State.resetWith c).mem = Memory.filled c.memReset := rfl
theorem resetWith_input (c : Config) : (State.resetWith c).input = [] := rfl
theorem resetWith_cfg (c : Config) : (State.resetWith c).cfg = c := rfl

theorem endless_peek (a : Word) : endless.peek a = 0x0041#16 := by
  unfold State.peek endless
  rw [resetWith_mem, Memory.filled_read _ a.isLt]
  rfl

theorem endless_wf : endless.mem.wf = true := by
  rw [endless, resetWith_mem]
  exact Memory.filled_wf _

theorem endless_quiet : Quiet endless where
  wf := endless_wf
  input := resetWith_input _
  clear := by
    rw [endless_peek, endless, resetWith_cfg, endlessConfig]
    decide

theorem witness_AStringWithNoZeroWordGoesOn : ∃ u ws, (∀ w ∈ ws, w ≠ 0#16) ∧
    readWords (walkWords endless) (endless.reg .r0) endless = (ws, u) ∧ endless.run = .running := by
  refine ⟨_, _, fun w hw => ?_, endless_quiet.reads _ _, rfl⟩
  obtain ⟨j, _, rfl⟩ := List.mem_map.mp hw
  rw [endless_peek]
  decide
theorem witness_AnEndlessStringIsWrittenForEver : endless.mem.wf = true ∧ endless.run = .running ∧
    (∀ a, endless.peek a ≠ 0#16) ∧ takeByte endless.input = none ∧
    endless.peek endless.cfg.kbsrAddr &&& endless.cfg.kbsrReady = 0#16 := by
  refine ⟨endless_quiet.wf, rfl, fun a => ?_, ?_, endless_quiet.clear⟩
  · rw [endless_peek]
    decide
  · rw [endless_quiet.input]
    rfl

/-- A string that ends only on its second lap: R0 points at the status cell, whose first read finds a byte and gives 0x8000, and
whose second read, a lap later, finds none and gives zero. -/
def laterLap : State := (endless.setReg .r0 endlessConfig.kbsrAddr).setInput [.byte 0x41]

theorem witness_StringRoutines_laterLap : ∃ (ws : List Word) (u : State), laterLap.mem.wf = true ∧ ws.length = 65536 ∧
    (∀ w ∈ ws, w ≠ 0#16) ∧ readWords (ws.length + 1) (laterLap.reg .r0) laterLap = (ws ++ [0#16], u) := by
  have hwf : laterLap.mem.wf = true := by
    rw [laterLap, State.setInput_mem, State.setReg_mem]
    exact endless_wf
  have hr : laterLap.reg .r0 = laterLap.cfg.kbsrAddr := rfl
  have hcfg : laterLap.cfg = endlessConfig := rfl
  have hpeek : ∀ a, laterLap.peek a = 0x0041#16 := by
    intro a
    rw [laterLap, State.setInput_peek, State.setReg_peek, endless_peek]
  have hpoll := State.poll_of_byte (s := laterLap) (b := 0x41) (rest := []) rfl
  generalize hv : laterLap.poll = v at hpoll
  have hvwf : v.mem.wf = true := by rw [← hv, ← State.polled_kbsr]; exact State.polled_wf hwf _
  have hvcfg : v.cfg = endlessConfig := by rw [hpoll, State.memWrite_cfg, State.setInput_cfg, State.memWrite_cfg, hcfg]
  have hvin : v.input = [] := by rw [hpoll, State.memWrite_input, State.setInput_input]
  have hvpeek : ∀ a, v.peek a = if a = endlessConfig.kbdrAddr then 0x0041#16 else
      if a = endlessConfig.kbsrAddr then 0x8000#16 else 0x0041#16 := by
    intro a
    rw [hpoll, State.memWrite_peek (by simpa using Memory.write_wf hwf (BitVec.isLt _)), State.setInput_peek,
      State.memWrite_peek hwf, hcfg, hpeek]
    rfl
  have hvne : ∀ a, v.peek a ≠ 0#16 := by
    intro a
    rw [hvpeek]
    split
    · decide
    · split <;> decide
  have hk : endlessConfig.kbsrAddr ≠ endlessConfig.kbdrAddr := by decide
  have hplain : ∀ n, n ≤ 65535 → readWords n (endlessConfig.kbsrAddr + 1) v =
      ((List.range n).map fun j => v.peek (endlessConfig.kbsrAddr + 1 + BitVec.ofNat 16 j), v) := by
    intro n
    induction n with
    | zero => intro _; rfl
    | succ n ih =>
      intro hn
      have hne : endlessConfig.kbsrAddr + 1 + BitVec.ofNat 16 n ≠ v.cfg.kbsrAddr := by
        rw [hvcfg, add_one_add_ofNat]
        intro h
        have h1 := congrArg BitVec.toNat h
        have h2 := endlessConfig.kbsrAddr.isLt
        simp only [BitVec.toNat_add, BitVec.toNat_ofNat] at h1
        omega
      rw [readWords_add, ih (by omega), List.range_succ, List.map_append]
      simp only [readWords_succ, State.polled_of_ne hne]
      rfl
  have hlast : v.polled endlessConfig.kbsrAddr = v.poll := by rw [← hvcfg, State.polled_kbsr]
  have hzero : v.poll.peek endlessConfig.kbsrAddr = 0#16 := by
    rw [State.poll_of_nil hvin, State.memWrite_peek hvwf, hvcfg, if_pos rfl, hvpeek, if_neg hk, if_pos rfl]
    decide
  have hback : endlessConfig.kbsrAddr + 1 + BitVec.ofNat 16 65535 = endlessConfig.kbsrAddr := by decide
  obtain ⟨n, hn⟩ : ∃ n, n = 65535 := ⟨_, rfl⟩
  rw [← hn] at hback
  refine ⟨v.peek endlessConfig.kbsrAddr ::
    (List.range n).map fun j => v.peek (endlessConfig.kbsrAddr + 1 + BitVec.ofNat 16 j), v.poll, hwf, ?_, ?_, ?_⟩
  · rw [List.length_cons, List.length_map, List.length_range, hn]
  · intro w hw
    rcases List.mem_cons.mp hw with rfl | hw
    · exact hvne _
    · obtain ⟨j, _, rfl⟩ := List.mem_map.mp hw
      exact hvne _
  · rw [List.length_cons, List.length_map, List.length_range, readWords_succ, hr, State.polled_kbsr, hv, hcfg, readWords_add,
      hplain n hn.le, hback]
    simp only [readWords_succ, hlast, hzero]
    rfl
/-- PUTS on it is wholly executed in its one step (R13). -/
theorem test_puts_later_lap : ∃ t, exec .trapPuts laterLap = .next t ∧ t.pending = none := by
  obtain ⟨ws, u, h1, _, h3, h4⟩ := witness_StringRoutines_laterLap
  refine ⟨laterLap.runString .puts (laterLap.reg .r0), by rw [exec, execTrapPuts], ?_⟩
  rw [State.runString_ends .puts h1 h3 h4]
  rfl
theorem witness_OnlyHeldReadsAndEndlessStringsDoNotComplete : hi.mem.wf = true ∧ hi.pending = none ∧
    takeByte hi.input = none ∧ endless.mem.wf = true ∧ endless.pending = none ∧
    ∀ n, ∀ w ∈ (readWords n (endless.reg .r0) endless).1, w ≠ 0#16 := by
  refine ⟨by decide, rfl, rfl, endless_quiet.wf, rfl, fun n w hw => ?_⟩
  rw [endless_quiet.reads] at hw
  obtain ⟨j, _, rfl⟩ := List.mem_map.mp hw
  rw [endless_peek]
  decide
theorem witness_TrapRoutinesTouchOnlyR0 : hi.mem.wf = true ∧ opcode .trapPuts = 0xF#4 ∧ opcode (.trapOther 0) = 0xF#4 := by
  decide
theorem witness_StepRunsTheDecodedInstruction :
    State.reset.run = .running ∧ State.reset.pending = none ∧ State.reset.pc ≠ State.reset.cfg.kbsrAddr := by decide
theorem witness_NoStepAfterTheEnd : (State.reset.setRun .halted).run ≠ .running ∧
    (State.reset.setRun .aborted).run ≠ .running := by decide
theorem witness_RunStateTransitions : (∃ t, step (placed 0x3000 0xF025) = .next t ∧ t.run = .halted) ∧
    (∃ t, step (placed 0x3000 0xD000) = .next t ∧ t.run = .aborted) ∧
    (∃ t, step (placed 0x3000 0x1062) = .next t ∧ t.run = .running) ∧
    (∃ t, step (heldIn .getc) = .next t ∧ (heldIn .getc).pending ≠ none) :=
  ⟨⟨_, rfl, rfl⟩, ⟨_, rfl, rfl⟩, ⟨_, rfl, rfl⟩, ⟨_, rfl, by decide⟩⟩
theorem witness_NoInstructionFaults : State.reset.run = .running := rfl
theorem reset_inv : State.reset.Inv := ⟨rfl, .inr rfl, by decide, fun _ => rfl⟩
theorem placed_add_inv : (placed 0x3000 0x1062).Inv := ⟨by decide, .inr rfl, by decide, fun _ => rfl⟩
theorem witness_StepKeepsTheInvariant : ∃ s t : State, s.Inv ∧ step s = .next t ∧ s ≠ State.reset :=
  ⟨_, _, placed_add_inv, rfl, by decide⟩
theorem witness_InvariantHoldsAtReset : defaultConfig.ok = true := by decide
theorem witness_InvariantHoldsAfterBootAndSupply :
    (∃ s, defaultConfig.ok = true ∧ boot defaultConfig [[0x40, 0x00, 0xF0, 0x25]] = some s) ∧ ∃ s : State, s.Inv :=
  ⟨⟨_, by decide, rfl⟩, _, reset_inv⟩
theorem witness_FlagsFollowTheSevenDefiningInstructions : definedReg (.ld .r3 0) = some .r3 ∧
    (∃ t, definedReg (.st .r3 0) = none ∧ exec (.st .r3 0) State.reset = .next t) ∧
    (∃ t, oneFlag ((placed 0x3000 0x1062).setCond 0b100).cond ∧ step ((placed 0x3000 0x1062).setCond 0b100) = .next t) :=
  ⟨rfl, ⟨_, rfl, rfl⟩, ⟨_, .inr (.inr rfl), rfl⟩⟩
theorem witness_OnlyTheNamedRegisterIsWritten :
    ∃ t, exec (.jsr 2) State.reset = .next t ∧ writtenReg (.jsr 2) ≠ some .r6 := ⟨_, rfl, by decide⟩
theorem witness_OnlyControlTransfersWriteThePc :
    (∃ t, writesPc .trapPuts = false ∧ exec .trapPuts hi = .next t) ∧
    (∃ t, (heldIn .inn).pending ≠ none ∧ step (heldIn .inn) = .next t) := ⟨⟨_, rfl, rfl⟩, ⟨_, by decide, rfl⟩⟩
/-- A stored cell changes in one step, the status cell and the data cell in a step that reads the status cell; and ST, which
reads nothing, and an LD elsewhere change no other cell. -/
theorem witness_OnlyStoresAndThePollWriteMemory :
    (∃ s t : State, s.mem.wf = true ∧ step s = .next t ∧ t.peek 0x3001 ≠ s.peek 0x3001 ∧ s.pending = none ∧
      storeAddress (decode s.fetch.1) s.fetch.2 = some 0x3001#16) ∧
    (∃ s t : State, s.mem.wf = true ∧ step s = .next t ∧ t.peek s.cfg.kbsrAddr ≠ s.peek s.cfg.kbsrAddr ∧
      t.peek s.cfg.kbdrAddr ≠ s.peek s.cfg.kbdrAddr ∧ stepReadsAt s s.cfg.kbsrAddr) ∧
    (hi.mem.wf = true ∧ readsNothing (.st .r1 0) = true ∧ storeAddress (.st .r1 0) hi ≠ some hi.cfg.kbsrAddr) ∧
    (¬ readsAt (.ld .r1 0) hi hi.cfg.kbsrAddr ∧ storeAddress (.ld .r1 0) hi ≠ some hi.cfg.kbsrAddr) :=
  ⟨⟨withRegs (placed 0x3000 0x3200) [(.r1, 0xF025)], _, by decide, rfl, by decide, rfl, by decide⟩,
    ⟨withInput (placed 0xFDFF 0x2000) [0x61], _, by decide, rfl, by decide, by decide, .inr rfl⟩,
    by decide, by show ¬ hi.cfg.kbsrAddr = hi.pc + sext 0#9; decide, by decide⟩
theorem witness_ChannelsOnlyMoveForward : ∃ t, step (withInput (placed 0x3000 0xF023) [0x7A]) = .next t := ⟨_, rfl⟩
theorem witness_OtherInstructionsDoNotSeeTheInput : readsNothing (.st .r1 0) = true ∧ readsNothing .trapOut = true := by
  decide
/-- V-S2. -/
theorem witness_AStoreIsSeenByTheNextFetch :
    let s := withRegs (placed 0x3000 0x3200) [(.r1, 0xF025)]
    s.mem.wf = true ∧ s.run = .running ∧ s.pending = none ∧ s.pc ≠ s.cfg.kbsrAddr ∧ s.pc + 1 ≠ s.cfg.kbsrAddr ∧
      decode (s.peek s.pc) = .st .r1 0 := by decide

end Sys2Proof.Machine.Tests
end

/-! # Proofs of the family 00_scope: the host channels (R12, R37) and which instructions complete in their step (R13) -/

namespace Sys2Proof.Machine

/-! ## `InAvail()` -/

/-- `InAvail()` with a byte in front answers true and changes nothing. -/
theorem State.inAvail_of_byte {s : State} {b : Byte} {rest : List InEvent} (h : s.input = .byte b :: rest) :
    s.inAvail = (true, s) := by
  simp [State.inAvail, h]

/-- `InAvail()` with a quiet mark in front answers false and uses up the mark. -/
theorem State.inAvail_of_quiet {s : State} {rest : List InEvent} (h : s.input = .quiet :: rest) :
    s.inAvail = (false, s.setInput rest) := by
  simp [State.inAvail, h]

/-- `InAvail()` answers true only with a byte in front. -/
theorem State.exists_byte_of_inAvail {s : State} (h : s.inAvail.1 = true) : ∃ b rest, s.input = .byte b :: rest := by
  match hi : s.input with
  | .byte b :: rest => exact ⟨b, rest, rfl⟩
  | .quiet :: rest => simp [State.inAvail_of_quiet hi] at h
  | [] => simp [State.inAvail, hi] at h

/-- Settles O9: a true answer means a byte stands in front of the input, and `InRead()` takes that byte. -/
theorem availableInputCanBeRead : Obligations.AvailableInputCanBeRead := by
  refine ⟨fun s h => ?_, fun s b rest => ⟨?_, ?_, ?_⟩⟩
  · obtain ⟨b, rest, hi⟩ := State.exists_byte_of_inAvail h
    rw [State.inAvail_of_byte hi]
    exact ⟨b, s.setInput rest, State.inRead_of_some (by rw [hi, takeByte])⟩
  · rw [State.inAvail_of_byte (State.setInput_input s _)]
  · rw [State.inAvail_of_quiet (State.setInput_input s _)]
  · rw [State.inAvail_of_quiet (State.setInput_input s _)]
    rfl

/-! ## The channels only move forward -/

/-- A read only takes from the front of the input. -/
theorem State.polled_input_suffix (s : State) (a : Word) : (s.polled a).input <:+ s.input := by
  rcases s.polled_input a with h | h
  · exact h ▸ List.suffix_refl _
  · exact h ▸ List.tail_suffix _

/-- A routine taken up again only takes from the front of the input. -/
theorem State.resume_input (r : Routine) (s : State) : (State.resume r s).input <:+ s.input := by
  cases r with
  | getc =>
    show s.runGetc.input <:+ s.input
    rcases s.runGetc_cases with ⟨b, rest, h, e⟩ | ⟨-, e⟩ <;> rw [e]
    · exact takeByte_suffix h
    · exact List.suffix_refl _
  | inn =>
    show s.runIn.input <:+ s.input
    rcases s.runIn_cases with ⟨b, rest, h, e⟩ | ⟨-, e⟩ <;> rw [e]
    · exact takeByte_suffix h
    · exact List.suffix_refl _
  | string k a => exact State.walkString_input k _ a s

/-- An instruction only takes from the front of the input: by its reads of memory, or as the routine it starts. -/
theorem exec_input {i : Instr} {s t : State} (e : exec i s = .next t) : t.input <:+ s.input := by
  cases i <;> cases e
  case br => split <;> exact List.suffix_refl _
  case ld => exact s.polled_input_suffix _
  case ldr => exact s.polled_input_suffix _
  case ldi => exact (State.polled_input_suffix _ _).trans (s.polled_input_suffix _)
  case sti => exact s.polled_input_suffix _
  case trapGetc => exact s.resume_input .getc
  case trapIn => exact State.resume_input .inn (s.outWrites s.cfg.inPrompt)
  case trapPuts => exact s.resume_input (.string .puts _)
  case trapPutsp => exact s.resume_input (.string .putsp _)
  all_goals exact List.suffix_refl _

/-- A step only takes from the front of the input. -/
theorem step_input {s t : State} (e : step s = .next t) : t.input <:+ s.input := by
  obtain ⟨-, ⟨r, -, rfl⟩ | ⟨-, e⟩⟩ := step_cases e
  · exact s.resume_input r
  · refine (exec_input e).trans ?_
    rw [State.fetch_snd]
    exact s.polled_input_suffix s.pc

/-- What `t` has written and reported goes on from what `s` had, and the parameters are the same. -/
def AppendsTo (s t : State) : Prop := s.output <+: t.output ∧ s.reports <+: t.reports ∧ t.cfg = s.cfg

/-- No update takes from a history or changes a parameter. -/
theorem appendsTo_kept (s : State) : KeptByUpdates (AppendsTo s) where
  setReg _ _ _ h := h
  setPc _ _ h := h
  setCond _ _ h := h
  setRun _ _ h := h
  setPending _ _ h := h
  memWrite _ _ _ h := h
  setInput _ _ h := h
  emit _ _ := fun ⟨ho, hr, hc⟩ => ⟨ho.trans (List.prefix_append _ _), hr, hc⟩
  report _ _ := fun ⟨ho, hr, hc⟩ => ⟨ho, hr.trans (List.prefix_append _ _), hc⟩

/-- Settles O57: the input by the split over what a step reads, the rest because every update keeps it. -/
theorem channelsOnlyMoveForward : Obligations.ChannelsOnlyMoveForward := fun s _ e =>
  ⟨step_input e, step_induct (appendsTo_kept s) e ⟨List.prefix_refl _, List.prefix_refl _, rfl⟩⟩

/-! ## PUTS and PUTSP on a string that ends -/

/-- What PUTS writes for a sequence of words: the low byte of each (R233). -/
theorem puts_bytes_events (ws : List Word) :
    (ws.flatMap StringKind.puts.bytes).map OutEvent.byte = ws.map fun w => .byte (w.setWidth 8) := by
  induction ws with
  | nil => rfl
  | cons w ws ih => simp [StringKind.bytes, lowByte_eq_setWidth, ← ih]

/-- What PUTSP writes for a sequence of words: the low byte of each, then the high byte if it is not zero (R235). -/
theorem putsp_bytes_events (ws : List Word) :
    (ws.flatMap StringKind.putsp.bytes).map OutEvent.byte = ws.flatMap fun w => .byte (w.setWidth 8) ::
      (if w.extractLsb' 8 8 = 0 then [] else [.byte (w.extractLsb' 8 8)]) := by
  rw [List.map_flatMap]
  congr 1
  funext w
  simp only [StringKind.bytes, highByte, lowByte_eq_setWidth]
  split <;> rfl

/-- Output written and a routine marked after a sequence of reads leave everything as the reads left it. -/
theorem writesString_of_readWords {n : Nat} {a : Word} {s u : State} {ws : List Word} (h : readWords n a s = (ws, u))
    (out : List OutEvent) (p : Option Routine) : WritesString s u ((u.emit out).setPending p) out p := by
  obtain ⟨core, mode, output⟩ := readWords_frame n a s
  rw [h] at core mode output
  exact { output := congrArg (· ++ out) output, pending := rfl, same := ⟨core.regs, core.pc, core.cond⟩,
          cells := fun _ => rfl, input := rfl, run := mode.run, reports := mode.reports, cfg := mode.cfg }

/-- Settles O37: the routine is wholly executed in its step (`State.runString_ends`), and its reads keep their frame. -/
theorem stringRoutinesWriteUpToTheFirstZeroWord : Obligations.StringRoutinesWriteUpToTheFirstZeroWord := by
  intro s u ws hs hw h
  have ends : ∀ k, WritesString s u (s.runString k (s.reg .r0)) ((ws.flatMap k.bytes).map .byte ++ [.flush]) none := by
    intro k
    rw [State.runString_ends k hs hw h]
    exact writesString_of_readWords h _ _
  exact ⟨⟨_, rfl, puts_bytes_events ws ▸ ends .puts⟩, ⟨_, rfl, putsp_bytes_events ws ▸ ends .putsp⟩⟩

/-! ## Which instructions complete -/

/-- GETC does not complete exactly while no byte is to come (R279). -/
theorem State.runGetc_pending (s : State) : s.runGetc.pending ≠ none ↔ takeByte s.input = none := by
  rcases s.runGetc_cases with ⟨b, rest, h, e⟩ | ⟨h, e⟩ <;> simp [e, h]

/-- IN does not complete exactly while no byte is to come (R279). -/
theorem State.runIn_pending (s : State) : s.runIn.pending ≠ none ↔ takeByte s.input = none := by
  rcases s.runIn_cases with ⟨b, rest, h, e⟩ | ⟨h, e⟩ <;> simp [e, h]

/-- Words read are all non-zero, or there is a first zero one. -/
theorem readWords_nonzero_or_ends (n : Nat) (a : Word) (s : State) :
    (∀ w ∈ (readWords n a s).1, w ≠ 0#16) ∨
      ∃ ws u, (∀ w ∈ ws, w ≠ 0#16) ∧ readWords (ws.length + 1) a s = (ws ++ [0#16], u) := by
  induction n generalizing a s with
  | zero => exact .inl (by simp [readWords])
  | succ n ih =>
    by_cases h0 : (s.polled a).peek a = 0#16
    · exact .inr ⟨[], s.polled a, by simp, by simp [readWords, h0]⟩
    · rcases ih (a + 1) (s.polled a) with hn | ⟨ws, u, hw, h⟩
      · exact .inl (by simpa [readWords_succ] using ⟨h0, hn⟩)
      · exact .inr ⟨(s.polled a).peek a :: ws, u, by simpa using ⟨h0, hw⟩,
          by rw [List.length_cons, readWords_succ, h]; rfl⟩

/-- PUTS and PUTSP do not complete exactly when the string has no zero word however far it is read (R13, R316). -/
theorem State.runString_pending (k : StringKind) {s : State} (hs : s.mem.wf = true) (a : Word) :
    (s.runString k a).pending ≠ none ↔ ∀ n, ∀ w ∈ (readWords n a s).1, w ≠ 0#16 := by
  rcases readWords_nonzero_or_ends (walkWords s) a s with hw | ⟨ws, u, hw, h⟩
  · rw [State.runString_goes_on k hw Prod.mk.eta.symm]
    exact ⟨fun _ => string_endless hs a hw, fun _ => by simp⟩
  · rw [State.runString_ends k hs hw h]
    refine ⟨fun hp => absurd rfl hp, fun hall => absurd rfl (hall (ws.length + 1) 0#16 ?_)⟩
    simp [h]

/-- An instruction that is none of GETC, IN, PUTS and PUTSP leaves no routine in progress that was not. -/
theorem exec_pending {i : Instr} (h : i ≠ .trapGetc ∧ i ≠ .trapIn ∧ i ≠ .trapPuts ∧ i ≠ .trapPutsp) (s : State) :
    ∃ t, exec i s = .next t ∧ t.pending = s.pending := by
  obtain ⟨hgetc, hin, hputs, hputsp⟩ := h
  cases i
  case br => exact ⟨_, rfl, by split <;> rfl⟩
  case ld => exact ⟨_, rfl, s.polled_pending _⟩
  case ldr => exact ⟨_, rfl, s.polled_pending _⟩
  case ldi => exact ⟨_, rfl, (State.polled_pending _ _).trans (s.polled_pending _)⟩
  case sti => exact ⟨_, rfl, s.polled_pending _⟩
  case trapGetc => exact absurd rfl hgetc
  case trapIn => exact absurd rfl hin
  case trapPuts => exact absurd rfl hputs
  case trapPutsp => exact absurd rfl hputsp
  all_goals exact ⟨_, rfl, rfl⟩

/-- Settles O41: the four routines that read by their own lemma, every other instruction by `exec_pending`. -/
theorem onlyHeldReadsAndEndlessStringsDoNotComplete : Obligations.OnlyHeldReadsAndEndlessStringsDoNotComplete := by
  intro i s hs hp
  by_cases hgetc : i = .trapGetc
  · subst i
    exact ⟨_, rfl, by simpa using s.runGetc_pending⟩
  by_cases hin : i = .trapIn
  · subst i
    exact ⟨_, rfl, by simpa using (s.outWrites s.cfg.inPrompt).runIn_pending⟩
  by_cases hputs : i = .trapPuts
  · subst i
    exact ⟨_, rfl, by simpa using State.runString_pending .puts hs (s.reg .r0)⟩
  by_cases hputsp : i = .trapPutsp
  · subst i
    exact ⟨_, rfl, by simpa using State.runString_pending .putsp hs (s.reg .r0)⟩
  obtain ⟨t, e, ht⟩ := exec_pending ⟨hgetc, hin, hputs, hputsp⟩ s
  exact ⟨t, e, by simp [ht, hp, hgetc, hin, hputs, hputsp]⟩

end Sys2Proof.Machine

/-! # Proofs of the family 10_state: memory as data, reset, which parts of the state each instruction writes, the invariant -/

namespace Sys2Proof.Machine

/-! ## Memory as data and the state after reset -/

/-- Settles O11: an address below 65536 is a word, so `Memory.ext_of_read` applies. -/
theorem equalReadsMeanEqualMemory : Obligations.EqualReadsMeanEqualMemory := by
  intro m m' hm hm' h
  refine Memory.ext_of_read hm hm' fun a ha => ?_
  have hword := h (BitVec.ofNat 16 a)
  rwa [BitVec.toNat_ofNat, Nat.mod_eq_of_lt ha] at hword

/-- Every register holds `GPR_RESET` after reset. -/
theorem State.resetWith_reg (c : Config) (r : Reg) : (State.resetWith c).reg r = c.gprReset := by
  cases r <;> rfl

/-- Every cell holds `MEM_RESET` after reset. -/
theorem State.resetWith_peek (c : Config) (a : Word) : (State.resetWith c).peek a = c.memReset :=
  Memory.filled_read c.memReset a.isLt

/-- Settles O14: registers and cells by the two lemmas above, every other field as `State.resetWith` writes it. -/
theorem resetLeavesTheParameters : Obligations.ResetLeavesTheParameters :=
  ⟨fun c => ⟨State.resetWith_reg c, rfl, rfl, State.resetWith_peek c, rfl, rfl, rfl, rfl, rfl⟩,
    State.resetWith_reg defaultConfig, rfl, rfl, State.resetWith_peek defaultConfig, rfl, rfl, rfl⟩

/-- The reset state meets the invariant: its memory is filled with one value, its flags are at their reset value. -/
theorem State.resetWith_inv {c : Config} (hc : c.ok = true) : (State.resetWith c).Inv where
  memory := Memory.filled_wf c.memReset
  flags := .inr rfl
  parameters := hc
  progress _ := rfl

/-- Settles O51: `State.resetWith_inv`; the defaults are legal parameters. -/
theorem invariantHoldsAtReset : Obligations.InvariantHoldsAtReset :=
  ⟨fun _ => State.resetWith_inv, State.resetWith_inv (by decide)⟩

/-! ## An instruction makes only the updates its row allows -/

/-- A property of states kept by the updates that the row of `i` allows: a write of the register it names (R22), a write of the
pc by a control transfer (R26), the flags of a value by an instruction that defines one (R28), the run state it ends in (R270),
and a routine left in progress only where the run goes on. Every instruction may write memory and use the channels. An update
of a part that the property does not look at keeps it by computation: such a field needs no proof of its own. -/
structure KeptByRow (i : Instr) (P : State → Prop) : Prop where
  setReg : ∀ {r}, writtenReg i = some r → ∀ s v, P s → P (s.setReg r v) := by intros; assumption
  setPc : writesPc i = true → ∀ s v, P s → P (s.setPc v) := by intros; assumption
  setCC : ∀ {d}, definedReg i = some d → ∀ s v, P s → P (s.setCC v) := by intros; assumption
  setRun : runAfter i ≠ .running → ∀ s, P s → P (s.setRun (runAfter i)) := by intros; assumption
  setPending : runAfter i = .running → ∀ s p, P s → P (s.setPending p) := by intros; assumption
  memWrite : ∀ s a v, P s → P (s.memWrite a v) := by intros; assumption
  setInput : ∀ s es, P s → P (s.setInput es) := by intros; assumption
  emit : ∀ s es, P s → P (s.emit es) := by intros; assumption
  report : ∀ s c, P s → P (s.report c) := by intros; assumption

/-- The register an instruction defines is the one its row names. -/
theorem writtenReg_of_definedReg {i : Instr} {d : Reg} (h : definedReg i = some d) : writtenReg i = some d := by
  cases i <;> cases h <;> rfl

/-- An instruction makes no update but those of its row. -/
theorem exec_induct_of_row {P : State → Prop} {i : Instr} (k : KeptByRow i P) {s t : State} (e : exec i s = .next t)
    (h : P s) : P t := by
  have read : ∀ s a, P s → P (State.polled s a) := fun s a hs => s.polled_induct a hs k.memWrite k.setInput
  have define : ∀ {d}, definedReg i = some d → ∀ s v, P s → P (State.define s d v) := fun hd s v hs =>
    k.setCC hd _ _ (k.setReg (writtenReg_of_definedReg hd) _ _ hs)
  have resume : writtenReg i = some .r0 → runAfter i = .running → ∀ r s, P s → P (State.resume r s) :=
    fun hreg hrun r s hs =>
      State.resume_induct r s hs (k.setReg hreg) (k.setPending hrun) k.memWrite k.setInput k.emit
  have walk : runAfter i = .running → ∀ kind n a s, P s → P (State.walkString kind n a s) := fun hrun kind n a s hs =>
    State.walkString_induct kind n a s hs k.memWrite k.setInput k.emit (k.setPending hrun)
  cases i <;> cases e
  case br => split; exacts [h, k.setPc rfl _ _ h]
  case jmp => exact k.setPc rfl _ _ h
  case ret => exact k.setPc rfl _ _ h
  case jsr => exact k.setPc rfl _ _ (k.setReg rfl _ _ h)
  case jsrr => exact k.setPc rfl _ _ (k.setReg rfl _ _ h)
  case ld => exact define rfl _ _ (read _ _ h)
  case ldr => exact define rfl _ _ (read _ _ h)
  case ldi => exact define rfl _ _ (read _ _ (read _ _ h))
  case st => exact k.memWrite _ _ _ h
  case str => exact k.memWrite _ _ _ h
  case sti => exact k.memWrite _ _ _ (read _ _ h)
  case rti => exact k.setRun nofun _ (k.report _ _ h)
  case res => exact k.setRun nofun _ (k.report _ _ h)
  case trapGetc => exact resume rfl rfl .getc _ h
  case trapOut => exact k.emit _ _ (k.emit _ _ h)
  case trapPuts => exact walk rfl _ _ _ _ h
  case trapIn => exact resume rfl rfl .inn _ (k.emit _ _ h)
  case trapPutsp => exact walk rfl _ _ _ _ h
  case trapHalt => exact k.setRun nofun _ (k.emit _ _ (k.emit _ _ h))
  case trapOther => exact h
  all_goals exact define rfl _ _ h

/-- A property that the updates of every row keep is kept by every step: the fetch moves the pc as a RET may, and a routine
taken up again makes the updates of GETC or of a string walk. -/
theorem step_induct_of_rows {P : State → Prop} (k : ∀ i, KeptByRow i P) {s t : State} (e : step s = .next t) (h : P s) :
    P t := by
  have getc := k .trapGetc
  obtain ⟨-, ⟨r, -, rfl⟩ | ⟨-, e⟩⟩ := step_cases e
  · exact State.resume_induct r s h (getc.setReg rfl) (getc.setPending rfl) getc.memWrite getc.setInput getc.emit
  · refine exec_induct_of_row (k _) e ?_
    rw [State.fetch_snd]
    exact (k .ret).setPc rfl _ _ (s.polled_induct _ h getc.memWrite getc.setInput)

/-! ### Registers -/

/-- Settles O54: the row of an instruction allows a write of its own register only. -/
theorem onlyTheNamedRegisterIsWritten : Obligations.OnlyTheNamedRegisterIsWritten := by
  intro i s t r e hr
  have otherReg : ∀ {q}, writtenReg i = some q → r ≠ q := fun hq hrq => hr (hrq ▸ hq)
  exact exec_induct_of_row (P := fun u => u.reg r = s.reg r)
    { setReg := fun hq u v h => (u.setReg_reg_of_ne (otherReg hq) v).trans h } e rfl

/-! ### The pc -/

/-- An instruction that is no control transfer keeps the pc of the fetch (R26). -/
theorem exec_pc {i : Instr} (hi : writesPc i = false) {s t : State} (e : exec i s = .next t) : t.pc = s.pc :=
  exec_induct_of_row (P := fun u => u.pc = s.pc) { setPc := fun hpc => absurd (hi.symm.trans hpc) nofun } e rfl

/-- A routine taken up again leaves the pc alone (R279). -/
theorem State.resume_pc (r : Routine) (s : State) : (State.resume r s).pc = s.pc :=
  State.resume_induct (P := fun u => u.pc = s.pc) r s rfl (fun _ _ h => h) (fun _ _ h => h) (fun _ _ _ h => h)
    (fun _ _ h => h) (fun _ _ h => h)

/-- Settles O55: an instruction by its row, a step with a routine in progress because it only takes the routine up. -/
theorem onlyControlTransfersWriteThePc : Obligations.OnlyControlTransfersWriteThePc := by
  refine ⟨fun i s t hi e => exec_pc hi e, fun s t hp e => ?_⟩
  obtain ⟨-, ⟨r, -, rfl⟩ | ⟨hnone, -⟩⟩ := step_cases e
  · exact s.resume_pc r
  · exact absurd hnone hp

/-! ### The flags -/

/-- The flags of a value are exactly one flag (R30, R135). -/
theorem oneFlag_ccOf (v : Word) : oneFlag (ccOf v) := by
  unfold ccOf
  split
  · exact .inr (.inl rfl)
  · split
    · exact .inr (.inr rfl)
    · exact .inl rfl

/-- A register-defining instruction ends with the write of its destination and the flags of the value written (R137). -/
theorem exec_defines {i : Instr} {d : Reg} (h : definedReg i = some d) (s : State) :
    ∃ (u : State) (v : Word), exec i s = .next (u.define d v) := by
  cases i <;> cases h <;> exact ⟨_, _, rfl⟩

/-- Any other instruction keeps the flags (R28). -/
theorem exec_cond {i : Instr} (hi : definedReg i = none) {s t : State} (e : exec i s = .next t) : t.cond = s.cond :=
  exec_induct_of_row (P := fun u => u.cond = s.cond) { setCC := fun hd => absurd (hi.symm.trans hd) nofun } e rfl

/-- After a step the flags are those of a value, or what they were. -/
theorem step_cond {s t : State} (e : step s = .next t) : oneFlag t.cond ∨ t.cond = s.cond :=
  step_induct_of_rows (P := fun u => oneFlag u.cond ∨ u.cond = s.cond)
    (fun _ => { setCC := fun _ _ v _ => .inl (oneFlag_ccOf v) }) e (.inr rfl)

/-- Settles O53: the seven by `exec_defines`, the others by `exec_cond`, a step by `step_cond`. -/
theorem flagsFollowTheSevenDefiningInstructions : Obligations.FlagsFollowTheSevenDefiningInstructions := by
  refine ⟨fun i d s hd => ?_, fun i s t hi e => exec_cond hi e, fun s t hs e => ?_⟩
  · obtain ⟨u, v, e⟩ := exec_defines hd s
    exact ⟨u.define d v, e, by simp, oneFlag_ccOf v⟩
  · rcases step_cond e with ht | ht
    · exact ht
    · exact ht ▸ hs

/-! ### The input -/

/-- Settles O58: the two runs are the same updates; BR decides by the flags, which the input does not touch. -/
theorem otherInstructionsDoNotSeeTheInput : Obligations.OtherInstructionsDoNotSeeTheInput := by
  intro i s es h
  cases i <;> cases h
  case br n z p off9 =>
    by_cases hmask : brMask n z p &&& s.cond = 0b000#3
    · exact ⟨s, congrArg _ (if_pos hmask), rfl, congrArg _ (if_pos hmask)⟩
    · exact ⟨s.setPc (s.pcRelative off9), congrArg _ (if_neg hmask), rfl, congrArg _ (if_neg hmask)⟩
  all_goals exact ⟨_, rfl, rfl, rfl⟩

/-! ## The invariant -/

/-- A routine taken up again leaves the run state alone. -/
theorem State.resume_run (r : Routine) (s : State) : (State.resume r s).run = s.run :=
  State.resume_induct (P := fun u => u.run = s.run) r s rfl (fun _ _ h => h) (fun _ _ h => h) (fun _ _ _ h => h)
    (fun _ _ h => h) (fun _ _ h => h)

/-- An instruction after which the run goes on keeps the run state; one that ends the run leaves no routine in progress that
was not. -/
theorem exec_run_or_pending {i : Instr} {s t : State} (e : exec i s = .next t) :
    (runAfter i = .running → t.run = s.run) ∧ (runAfter i ≠ .running → t.pending = s.pending) :=
  exec_induct_of_row
    (P := fun u => (runAfter i = .running → u.run = s.run) ∧ (runAfter i ≠ .running → u.pending = s.pending))
    { setRun := fun hend _ ⟨_, hpending⟩ => ⟨fun hgo => absurd hgo hend, hpending⟩
      setPending := fun hgo _ _ ⟨hrun, _⟩ => ⟨hrun, fun hend => absurd hgo hend⟩ } e ⟨fun _ => rfl, fun _ => rfl⟩

/-- A step that ends the run leaves no routine in progress (R138). -/
theorem step_progress {s t : State} (e : step s = .next t) (hend : t.run ≠ .running) : t.pending = none := by
  obtain ⟨hrun, ⟨r, -, rfl⟩ | ⟨hnone, e⟩⟩ := step_cases e
  · exact absurd ((s.resume_run r).trans hrun) hend
  · obtain ⟨goes_on, ends⟩ := exec_run_or_pending e
    rw [State.fetch_snd, State.setPc_run, State.polled_run, hrun] at goes_on
    rw [State.fetch_snd, State.setPc_pending, State.polled_pending, hnone] at ends
    exact ends fun hgo => hend (goes_on hgo)

/-- Settles O50, one field of the invariant at a time: memory by `step_keeps_wf`, the flags by `step_cond`, the parameters
because no step changes them, the end of the run by `step_progress`. -/
theorem stepKeepsTheInvariant : Obligations.StepKeepsTheInvariant := by
  intro s t ⟨memory, flags, parameters, _⟩ e
  obtain ⟨-, -, -, hcfg⟩ := channelsOnlyMoveForward s t e
  refine ⟨step_keeps_wf e memory, ?_, hcfg ▸ parameters, step_progress e⟩
  rcases step_cond e with ht | ht
  · exact .inl ht
  · rw [ht, hcfg]
    exact flags

end Sys2Proof.Machine

/-! # Proofs of the family 20_memory: reads and writes of cells, the keyboard poll, and which cells a step changes -/

namespace Sys2Proof.Machine

/-! ## One write -/

/-- A write leaves every other cell as it was (R52). -/
theorem State.memWrite_peek_of_ne {s : State} (hs : s.mem.wf = true) {a c : Word} (h : c ≠ a) (v : Word) :
    (s.memWrite a v).peek c = s.peek c := by
  rw [State.memWrite_peek hs, if_neg h]

/-- A write is read back at its own address. -/
theorem State.memWrite_peek_self {s : State} (hs : s.mem.wf = true) (a v : Word) : (s.memWrite a v).peek a = v := by
  rw [State.memWrite_peek hs, if_pos rfl]

/-- Settles O10: the cells by what a read after a write gives, every other field because the update does not name it. -/
theorem memWriteStoresOneCell : Obligations.MemWriteStoresOneCell := fun _ a v hs =>
  ⟨{ stored := State.memWrite_peek_self hs a v
     otherCells := fun _ h => State.memWrite_peek_of_ne hs h v
     same := ⟨fun _ => rfl, rfl, rfl⟩
     rest := ⟨⟨rfl, rfl, rfl, rfl⟩, rfl, rfl⟩ }, State.memWrite_wf hs a v⟩

/-! ## One read -/

/-- The poll when `InAvail()` answers false: the ready bit is cleared in the state the answer left (R53). -/
theorem State.poll_of_not_avail {s : State} (h : s.inAvail.1 = false) :
    s.poll = s.inAvail.2.memWrite s.cfg.kbsrAddr (s.peek s.cfg.kbsrAddr &&& ~~~ s.cfg.kbsrReady) := by
  match hi : s.input with
  | .byte b :: rest => rw [State.inAvail_of_byte hi] at h; cases h
  | .quiet :: rest => rw [State.inAvail_of_quiet hi, State.poll_of_quiet hi]
  | [] => rw [State.poll_of_nil hi]; simp [State.inAvail, hi]

/-- `InAvail()` writes no cell. -/
theorem State.inAvail_mem (s : State) : s.inAvail.2.mem = s.mem := by
  unfold State.inAvail
  split <;> rfl

/-- The cells after a poll that latched a byte: the data cell is written last (R51). -/
theorem State.poll_peek_of_byte {s : State} (hs : s.mem.wf = true) {b : Byte} {rest : List InEvent}
    (h : s.input = .byte b :: rest) (c : Word) :
    s.poll.peek c =
      if c = s.cfg.kbdrAddr then zext16 b else if c = s.cfg.kbsrAddr then s.cfg.kbsrReady else s.peek c := by
  have hready : ((s.memWrite s.cfg.kbsrAddr s.cfg.kbsrReady).setInput rest).mem.wf = true := State.memWrite_wf hs _ _
  rw [State.poll_of_byte h, State.memWrite_peek hready, State.setInput_peek, State.memWrite_peek hs]

/-- The cells after a poll that found nothing available: the ready bit alone is cleared. -/
theorem State.poll_peek_of_not_avail {s : State} (hs : s.mem.wf = true) (h : s.inAvail.1 = false) (c : Word) :
    s.poll.peek c = if c = s.cfg.kbsrAddr then s.peek c &&& ~~~ s.cfg.kbsrReady else s.peek c := by
  have hsame : s.inAvail.2.peek c = s.peek c := congrArg (·.read c.toNat) s.inAvail_mem
  rw [State.poll_of_not_avail h, State.memWrite_peek (s.inAvail_mem ▸ hs), hsame]
  split
  · subst c; rfl
  · rfl

/-- Settles O8: the frame is that of one read, a read elsewhere is `State.polled_of_ne`, and the poll's two answers are the two
lemmas above. -/
theorem memReadPollsTheStatusCellOnly : Obligations.MemReadPollsTheStatusCellOnly := by
  intro s a hs
  obtain ⟨core, mode, output⟩ := readWords_frame 1 a s
  refine ⟨rfl, core, mode, output, fun h => State.polled_of_ne h, ?_, ?_⟩
  · rintro rfl havail
    obtain ⟨b, rest, hi⟩ := State.exists_byte_of_inAvail havail
    rw [State.memRead_snd, State.polled_kbsr]
    exact ⟨b, rest, hi, by rw [State.poll_of_byte hi]; rfl, State.poll_peek_of_byte hs hi⟩
  · rintro rfl havail
    rw [State.memRead_snd, State.polled_kbsr]
    exact ⟨by rw [State.poll_of_not_avail havail]; rfl, State.poll_peek_of_not_avail hs havail⟩

/-! ## The cells a step changes -/

/-- `c` is neither of the two keyboard cells, which are all that a poll writes (R53). -/
def PlainCell (k : Config) (c : Word) : Prop := c ≠ k.kbsrAddr ∧ c ≠ k.kbdrAddr

/-- A read keeps every cell, but for the keyboard cells when it reads `KBSR_ADDR`. -/
theorem State.polled_peek {s : State} (hs : s.mem.wf = true) {a c : Word} (h : s.cfg.kbsrAddr = a → PlainCell s.cfg c) :
    (s.polled a).peek c = s.peek c := by
  by_cases ha : s.cfg.kbsrAddr = a
  · obtain ⟨hkbsr, hkbdr⟩ := h ha
    exact State.polled_peek_of_ne hs a hkbsr hkbdr
  · rw [State.polled_of_ne (Ne.symm ha)]

/-- A string walk reads the address it starts at. -/
theorem stringReads_start (a : Word) (s : State) : stringReads a s a := ⟨0, nofun, (BitVec.add_zero a).symm⟩

/-- What a walk reads after a first word that is not zero and the output of that word, the whole walk reads. -/
theorem stringReads_of_rest {s : State} {a x : Word} (h0 : (s.polled a).peek a ≠ 0#16) {es : List OutEvent}
    (h : stringReads (a + 1) ((s.polled a).emit es) x) : stringReads a s x := by
  obtain ⟨m, hw, rfl⟩ := h
  rw [readWords_emit] at hw
  exact ⟨m + 1, by rw [readWords_succ]; exact List.forall_mem_cons.mpr ⟨h0, hw⟩, add_one_add_ofNat a m⟩

/-- A string walk keeps every cell, but for the keyboard cells when it reads `KBSR_ADDR`. -/
theorem State.walkString_peek {s : State} (hs : s.mem.wf = true) (k : StringKind) (n : Nat) {a c : Word}
    (h : stringReads a s s.cfg.kbsrAddr → PlainCell s.cfg c) : (State.walkString k n a s).peek c = s.peek c := by
  induction n generalizing a s with
  | zero => rfl
  | succ n ih =>
    have first : (s.polled a).peek c = s.peek c := State.polled_peek hs fun ha => h (ha ▸ stringReads_start a s)
    rw [State.walkString_succ, State.memRead_fst, State.memRead_snd, State.outWrites_eq]
    split
    · exact first
    next h0 =>
      refine (ih (s := (s.polled a).emit _) (State.polled_wf hs a) fun hr => ?_).trans first
      rw [State.emit_cfg, State.polled_cfg] at hr ⊢
      exact h (stringReads_of_rest h0 hr)

/-- GETC writes no cell (R231). -/
theorem State.runGetc_peek (s : State) (c : Word) : s.runGetc.peek c = s.peek c := by
  rcases s.runGetc_cases with ⟨b, rest, -, e⟩ | ⟨-, e⟩ <;> rw [e] <;> rfl

/-- IN writes no cell (R234). -/
theorem State.runIn_peek (s : State) (c : Word) : s.runIn.peek c = s.peek c := by
  rcases s.runIn_cases with ⟨b, rest, -, e⟩ | ⟨-, e⟩ <;> rw [e] <;> rfl

/-- An instruction keeps every cell but the one it stores to, and but for the keyboard cells when it reads `KBSR_ADDR` (R57,
R70). -/
theorem exec_peek {i : Instr} {s t : State} (hs : s.mem.wf = true) (e : exec i s = .next t) {c : Word}
    (hstore : storeAddress i s ≠ some c) (h : readsAt i s s.cfg.kbsrAddr → PlainCell s.cfg c) : t.peek c = s.peek c := by
  have stored : ∀ {a}, storeAddress i s = some a → c ≠ a := fun ha hca => hstore (hca ▸ ha)
  cases i <;> cases e
  case br => split <;> rfl
  case ld => exact State.polled_peek hs h
  case ldr => exact State.polled_peek hs h
  case ldi dst off9 =>
    have pointer : (s.polled (s.pcRelative off9)).peek c = s.peek c := State.polled_peek hs fun hk => h (.inl hk)
    refine (State.polled_peek (State.polled_wf hs _) fun hk => ?_).trans pointer
    rw [State.polled_cfg] at hk ⊢
    exact h (.inr hk)
  case st => exact State.memWrite_peek_of_ne hs (stored rfl) _
  case str => exact State.memWrite_peek_of_ne hs (stored rfl) _
  case sti src off9 =>
    have pointer : (s.polled (s.pcRelative off9)).peek c = s.peek c := State.polled_peek hs h
    exact (State.memWrite_peek_of_ne (State.polled_wf hs _) (stored rfl) _).trans pointer
  case trapGetc => exact s.runGetc_peek c
  case trapIn => exact (s.outWrites s.cfg.inPrompt).runIn_peek c
  case trapPuts => exact State.walkString_peek hs _ _ h
  case trapPutsp => exact State.walkString_peek hs _ _ h
  all_goals rfl

/-- A step keeps every cell but the one its instruction stores to, and but for the keyboard cells when it reads `KBSR_ADDR`. -/
theorem step_peek {s t : State} (hs : s.mem.wf = true) (e : step s = .next t) {c : Word}
    (hstore : s.pending = none → storeAddress (decode s.fetch.1) s.fetch.2 ≠ some c)
    (h : stepReadsAt s s.cfg.kbsrAddr → PlainCell s.cfg c) : t.peek c = s.peek c := by
  obtain ⟨-, ⟨r, hp, rfl⟩ | ⟨hp, e⟩⟩ := step_cases e
  · unfold stepReadsAt at h
    rw [hp] at h
    cases r with
    | getc => exact s.runGetc_peek c
    | inn => exact s.runIn_peek c
    | string k a => exact State.walkString_peek hs k _ h
  · unfold stepReadsAt at h
    rw [hp] at h
    have fetched : s.fetch.2.peek c = s.peek c := by
      rw [State.fetch_snd]
      exact State.polled_peek hs fun hk => h (.inl hk)
    have hcfg : s.fetch.2.cfg = s.cfg := by rw [State.fetch_snd, State.setPc_cfg, State.polled_cfg]
    have hwf : s.fetch.2.mem.wf = true := by
      rw [State.fetch_snd]
      exact State.polled_wf hs s.pc
    refine (exec_peek hwf e (hstore hp) fun hr => ?_).trans fetched
    rw [hcfg] at hr ⊢
    exact h (.inr hr)

/-- Every instruction answers a next state. -/
theorem exec_next (i : Instr) (s : State) : ∃ t, exec i s = .next t := by
  cases i <;> exact ⟨_, rfl⟩

/-- An instruction said to read nothing reads at no address. -/
theorem not_readsAt_of_readsNothing {i : Instr} (h : readsNothing i = true) (s : State) (x : Word) : ¬ readsAt i s x := by
  cases i <;> cases h <;> exact id

/-- Settles O56: a changed cell is one that `step_peek` does not keep, and `exec_peek` is the clause about instructions. -/
theorem onlyStoresAndThePollWriteMemory : Obligations.OnlyStoresAndThePollWriteMemory := by
  refine ⟨fun s t a hs e hchanged => ?_, fun i s a hs hreads hstore => ?_⟩
  · by_contra hnot
    obtain ⟨hstore, hpoll⟩ := not_or.mp hnot
    refine hchanged (step_peek hs e (fun hp ha => hstore ⟨hp, ha⟩) fun hr => ?_)
    exact ⟨fun ha => hpoll ⟨.inl ha, hr⟩, fun ha => hpoll ⟨.inr ha, hr⟩⟩
  · have hno : ¬ readsAt i s s.cfg.kbsrAddr := hreads.elim (not_readsAt_of_readsNothing · s _) id
    obtain ⟨t, e⟩ := exec_next i s
    exact ⟨t, e, exec_peek hs e hstore fun hr => absurd hr hno⟩

/-! ## A store to the next instruction -/

/-- With no routine in progress a step of a RUNNING machine executes the word it fetches (R130). -/
theorem step_of_fetch {s u : State} {w : Word} (hfetch : s.fetch = (w, u)) (hrun : s.run = .running)
    (hp : s.pending = none) : step s = exec (decode w) u := by
  simp only [step, hrun, hp, hfetch]

/-- A fetch away from `KBSR_ADDR` reads the cell and moves the pc, nothing else. -/
theorem State.fetch_of_ne {s : State} (h : s.pc ≠ s.cfg.kbsrAddr) : s.fetch = (s.peek s.pc, s.setPc (s.pc + 1)) :=
  Prod.ext (by rw [State.fetch_fst, State.polled_of_ne h]) (by rw [State.fetch_snd, State.polled_of_ne h])

/-- A word just stored at the pc is the word the next fetch reads (R67). -/
theorem State.fetch_memWrite_pc {s : State} (hs : s.mem.wf = true) (h : s.pc ≠ s.cfg.kbsrAddr) (v : Word) :
    (s.memWrite s.pc v).fetch = (v, (s.memWrite s.pc v).setPc (s.pc + 1)) := by
  rw [State.fetch_of_ne (s := s.memWrite s.pc v) h, State.memWrite_pc, State.memWrite_peek_self hs]

/-- `ST src, #0` stores at the pc it is given, the incremented one (R210). -/
theorem exec_st_zero (src : Reg) (s : State) : exec (.st src 0) s = .next (s.memWrite s.pc (s.reg src)) := by
  have haddr : s.pcRelative 0#9 = s.pc := BitVec.add_zero s.pc
  show Host.Outcome.next (s.memWrite (s.pcRelative 0#9) (s.reg src)) = _
  rw [haddr]

/-- Settles O59: the store goes to the incremented pc, which is where the next fetch reads. -/
theorem aStoreIsSeenByTheNextFetch : Obligations.AStoreIsSeenByTheNextFetch := by
  intro s src hs hrun hp hpc hnext hdec
  have hstore : step s = .next ((s.setPc (s.pc + 1)).memWrite (s.pc + 1) (s.reg src)) := by
    rw [step_of_fetch (State.fetch_of_ne hpc) hrun hp, hdec]
    exact exec_st_zero src (s.setPc (s.pc + 1))
  have hfetch := State.fetch_memWrite_pc (s := s.setPc (s.pc + 1)) hs hnext (s.reg src)
  have htwo : s.pc + 1 + 1 = s.pc + 2 := BitVec.add_assoc s.pc 1 1
  rw [State.setPc_pc, htwo] at hfetch
  exact ⟨_, hstore, rfl, step_of_fetch hfetch hrun hp⟩

end Sys2Proof.Machine

/-! # Proofs of the family 30_encoding: a word decodes by the significant bits alone, and encoding gives those bits back -/

namespace Sys2Proof.Machine

/-! ## Fields of a word -/

@[simp] theorem ofBits_toBits (r : Reg) : Reg.ofBits r.toBits = r := by
  cases r <;> rfl

@[simp] theorem toBits_ofBits (b : BitVec 3) : (Reg.ofBits b).toBits = b := by
  revert b
  decide

theorem bitsAt_getLsbD (lo n : Nat) (w : Word) (k : Nat) :
    (bitsAt lo n w).getLsbD k = (decide (k < n) && w.getLsbD (lo + k)) :=
  BitVec.getLsbD_extractLsb' ..

theorem putAt_getLsbD (lo : Nat) {n : Nat} (f : BitVec n) (k : Nat) :
    (putAt lo f).getLsbD k = (decide (k < 16) && decide (lo ≤ k) && f.getLsbD (k - lo)) := by
  rw [putAt, BitVec.getLsbD_shiftLeft, BitVec.getLsbD_setWidth]
  grind

theorem bitsAt_or (lo n : Nat) (w x : Word) : bitsAt lo n (w ||| x) = bitsAt lo n w ||| bitsAt lo n x :=
  BitVec.extractLsb'_or

theorem bitsAt_and (lo n : Nat) (w x : Word) : bitsAt lo n (w &&& x) = bitsAt lo n w &&& bitsAt lo n x :=
  BitVec.extractLsb'_and

/-- A field is read back where it was put. -/
theorem bitsAt_putAt_same {lo n : Nat} (h : lo + n ≤ 16) (f : BitVec n) : bitsAt lo n (putAt lo f) = f := by
  refine BitVec.eq_of_getLsbD_eq fun k hk => ?_
  have hword : lo + k < 16 := by omega
  simp only [bitsAt_getLsbD, putAt_getLsbD, hk, hword, Nat.le_add_right, Nat.add_sub_cancel_left, decide_true, Bool.true_and]

/-- A field is not seen where another was put. -/
theorem bitsAt_putAt_disjoint {lo n lo' n' : Nat} (h : lo + n ≤ lo' ∨ lo' + n' ≤ lo) (f : BitVec n') :
    bitsAt lo n (putAt lo' f) = 0#n := by
  refine BitVec.eq_of_getLsbD_eq fun k hk => ?_
  have habove : lo' ≤ lo + k → f.getLsbD (lo + k - lo') = false := fun _ => BitVec.getLsbD_of_ge f _ (by omega)
  rw [bitsAt_getLsbD, putAt_getLsbD, BitVec.getLsbD_zero]
  grind

/-- A field put back where it was read is the word on the bits of that field. -/
theorem putAt_bitsAt (lo n : Nat) (w : Word) : putAt lo (bitsAt lo n w) = w &&& putAt lo (BitVec.allOnes n) := by
  refine BitVec.eq_of_getLsbD_eq fun k hk => ?_
  rw [BitVec.getLsbD_and, putAt_getLsbD, putAt_getLsbD, bitsAt_getLsbD, BitVec.getLsbD_allOnes]
  grind

/-- The same for a single bit. -/
theorem putAt_ofBool (k : Nat) (w : Word) : putAt k (BitVec.ofBool (w.getLsbD k)) = w &&& BitVec.twoPow 16 k := by
  refine BitVec.eq_of_getLsbD_eq fun j hj => ?_
  rw [BitVec.getLsbD_and, putAt_getLsbD, BitVec.getLsbD_ofBool, BitVec.getLsbD_twoPow]
  grind

theorem putAt_one_of_set {w : Word} {k : Nat} (h : w.getLsbD k = true) : putAt k 1#1 = w &&& BitVec.twoPow 16 k := by
  rw [← putAt_ofBool, h]
  rfl

/-- A bit that is clear may stand in a mask or not. -/
theorem and_eq_and_of_clear {w m m' : Word} {k : Nat} (h : ¬ w.getLsbD k = true) (hm : m' = m ||| BitVec.twoPow 16 k) :
    w &&& m = w &&& m' := by
  have hk : w &&& BitVec.twoPow 16 k = 0#16 := by
    rw [← putAt_ofBool, Bool.eq_false_of_not_eq_true h]
    simp [putAt]
  rw [hm, BitVec.and_or_distrib_left, hk, BitVec.or_zero]

/-! ## The opcode field -/

/-- The opcode field is given by the four bits that `decode` looks at first (R98). -/
theorem bitsAt_opcode_iff {w : Word} {op : BitVec 4} : bitsAt 12 4 w = op ↔
    w.getLsbD 15 = op.getLsbD 3 ∧ w.getLsbD 14 = op.getLsbD 2 ∧ w.getLsbD 13 = op.getLsbD 1 ∧
      w.getLsbD 12 = op.getLsbD 0 := by
  constructor
  · rintro rfl
    simp only [bitsAt_getLsbD]
    exact ⟨rfl, rfl, rfl, rfl⟩
  · rintro ⟨h15, h14, h13, h12⟩
    refine BitVec.eq_of_getLsbD_eq fun k hk => ?_
    rw [bitsAt_getLsbD, decide_eq_true hk, Bool.true_and]
    interval_cases k <;> assumption

open Sys2Proof.Laws.OpcodeField in
/-- Every instruction's word has its opcode in bits 15:12 (R91, R96). -/
theorem bitsAt_opcode_encode (i : Instr) : bitsAt 12 4 (encode i) = opcode i := by
  cases i
  exacts [br .., addR .., addI .., ld .., st .., jsrr .., jsr .., andR .., andI .., ldr .., str .., rti, notR .., ldi ..,
    sti .., jmp .., ret, res, lea .., trapGetc, trapOut, trapPuts, trapIn, trapPutsp, trapHalt, trapOther ..]

/-- No opcode bit is ignored. -/
theorem bitsAt_opcode_significantBits (i : Instr) : bitsAt 12 4 (significantBits i) = BitVec.allOnes 4 := by
  unfold significantBits
  split <;> decide

/-! ## Words that agree on significant bits -/

section
variable {w x m : Word} (h : w &&& m = x &&& m)
include h

theorem bitsAt_eq_of_and_eq {lo n : Nat} (hm : bitsAt lo n m = BitVec.allOnes n) : bitsAt lo n w = bitsAt lo n x := by
  simpa only [bitsAt_and, hm, BitVec.and_allOnes] using congrArg (bitsAt lo n) h

theorem getLsbD_eq_of_and_eq {k : Nat} (hm : m.getLsbD k = true) : w.getLsbD k = x.getLsbD k := by
  simpa only [BitVec.getLsbD_and, hm, Bool.and_true] using congrArg (·.getLsbD k) h

end

theorem decodeJmp_of_wellFormed {base : Reg} (h : wellFormed (.jmp base) = true) : decodeJmp base = .jmp base :=
  if_neg (bne_iff_ne.mp h)

theorem decodeTrap_of_wellFormed {v : BitVec 8} (h : wellFormed (.trapOther v) = true) : decodeTrap v = .trapOther v := by
  revert v
  decide

/-- A word that agrees with the word of a well-formed instruction on its significant bits decodes to it (R110): its opcode is
that of the instruction, and every field that the opcode's row reads lies in the significant bits. -/
theorem decode_of_agree {w : Word} {i : Instr} (hi : wellFormed i = true)
    (h : w &&& significantBits i = encode i &&& significantBits i) : decode w = i := by
  have hop : bitsAt 12 4 w = opcode i :=
    (bitsAt_eq_of_and_eq h (bitsAt_opcode_significantBits i)).trans (bitsAt_opcode_encode i)
  obtain ⟨h15, h14, h13, h12⟩ := bitsAt_opcode_iff.mp hop
  have bit := fun k => getLsbD_eq_of_and_eq h (k := k)
  have field := fun lo n => bitsAt_eq_of_and_eq h (lo := lo) (n := n)
  rw [decode, h15, h14, h13, h12]
  cases i <;> simp only [opcode, significantBits] at bit field ⊢
  all_goals
    simp (disch := decide) [bit, field, encode, operandBits, regAt, putAt_getLsbD, bitsAt_or, bitsAt_putAt_same,
      bitsAt_putAt_disjoint, -BitVec.getLsbD_eq_getElem]
  case jmp base => exact decodeJmp_of_wellFormed hi
  case trapOther v => exact decodeTrap_of_wellFormed hi
  all_goals rfl

/-! ## What a word decodes to: a well-formed instruction -/

theorem wellFormed_decodeJmp (base : Reg) : wellFormed (decodeJmp base) = true := by
  cases base <;> rfl

theorem wellFormed_decodeTrap (v : BitVec 8) : wellFormed (decodeTrap v) = true := by
  revert v
  decide

/-- Decoding answers a well-formed instruction on every word (R96, R98). -/
theorem wellFormed_decode (w : Word) : wellFormed (decode w) = true := by
  unfold decode
  split
  case h_2 | h_5 | h_6 => split <;> rfl
  case h_13 => exact wellFormed_decodeJmp _
  case h_16 => exact wellFormed_decodeTrap _
  all_goals rfl

/-! ## What a word decodes to: its opcode -/

theorem opcode_decodeJmp (base : Reg) : opcode (decodeJmp base) = 0xC := by
  cases base <;> rfl

theorem opcode_decodeTrap (v : BitVec 8) : opcode (decodeTrap v) = 0xF := by
  unfold decodeTrap
  split_ifs <;> rfl

theorem opcode_decode (w : Word) : opcode (decode w) = bitsAt 12 4 w := by
  rw [eq_comm, bitsAt_opcode_iff]
  unfold decode
  split
  all_goals
    rename_i h15 h14 h13 h12
    rw [h15, h14, h13, h12]
  case h_2 | h_5 | h_6 => split <;> simp [opcode]
  case h_13 => simp [opcode_decodeJmp]
  case h_16 => simp [opcode_decodeTrap]
  all_goals simp [opcode]

/-! ## What a word decodes to: its operands -/

/-- The operand bits of `i` agree with `w` on the significant bits of `i` below the opcode. -/
def KeepsOperands (w : Word) (i : Instr) : Prop :=
  operandBits i &&& significantBits i = w &&& (0x0FFF &&& significantBits i)

theorem keepsOperands_of_mask {w m : Word} {i : Instr} (hops : operandBits i = w &&& m)
    (hm : m &&& significantBits i = 0x0FFF &&& significantBits i) : KeepsOperands w i := by
  rw [KeepsOperands, hops, BitVec.and_assoc, hm]

section
variable {w : Word}

/-- ADD, and AND by the same format, in the immediate mode. -/
theorem keepsOperands_addI (h : w.getLsbD 5 = true) :
    KeepsOperands w (.addI (regAt 9 w) (regAt 6 w) (bitsAt 0 5 w)) := by
  refine keepsOperands_of_mask (m := 0x0FFF) ?_ rfl
  simp only [operandBits, regAt, toBits_ofBits, putAt_bitsAt, putAt_one_of_set h, ← BitVec.and_or_distrib_left]
  rfl

/-- ADD, and AND by the same format, in the register mode: the mode bit is significant and clear. -/
theorem keepsOperands_addR (h : ¬ w.getLsbD 5 = true) :
    KeepsOperands w (.addR (regAt 9 w) (regAt 6 w) (regAt 0 w)) := by
  refine keepsOperands_of_mask (m := 0x0FE7) ?_ (by simp only [significantBits]; decide)
  simp only [operandBits, regAt, toBits_ofBits, putAt_bitsAt, ← BitVec.and_or_distrib_left]
  exact and_eq_and_of_clear h (by decide)

theorem keepsOperands_jsr (h : w.getLsbD 11 = true) : KeepsOperands w (.jsr (bitsAt 0 11 w)) := by
  refine keepsOperands_of_mask (m := 0x0FFF) ?_ rfl
  simp only [operandBits, putAt_bitsAt, putAt_one_of_set h, ← BitVec.and_or_distrib_left]
  rfl

/-- JSRR: the link bit is significant and clear. -/
theorem keepsOperands_jsrr (h : ¬ w.getLsbD 11 = true) : KeepsOperands w (.jsrr (regAt 6 w)) := by
  refine keepsOperands_of_mask (m := 0x09C0) ?_ (by simp only [significantBits]; decide)
  simp only [operandBits, regAt, toBits_ofBits, putAt_bitsAt]
  exact and_eq_and_of_clear h (by decide)

/-- NOT: the ones that the encoder writes in bits 5:0 are ignored bits (R113). -/
theorem keepsOperands_notR : KeepsOperands w (.notR (regAt 9 w) (regAt 6 w)) := by
  have hones : putAt 0 0x3F#6 &&& 0xFFC0 = 0#16 := by decide
  simp only [KeepsOperands, operandBits, significantBits, regAt, toBits_ofBits, putAt_bitsAt, ← BitVec.and_or_distrib_left]
  rw [BitVec.and_or_distrib_right, hones, BitVec.or_zero, BitVec.and_assoc]
  rfl

theorem keepsOperands_decodeJmp : KeepsOperands w (decodeJmp (regAt 6 w)) := by
  have hops (base : Reg) : operandBits (decodeJmp base) = putAt 6 base.toBits := by cases base <;> rfl
  have hsig (base : Reg) : significantBits (decodeJmp base) = 0xF1C0 := by cases base <;> rfl
  refine keepsOperands_of_mask (m := 0x01C0) ?_ (by rw [hsig]; decide)
  rw [hops, regAt, toBits_ofBits, putAt_bitsAt]
  rfl

theorem operandBits_decodeTrap (v : BitVec 8) : operandBits (decodeTrap v) = putAt 0 v := by
  unfold decodeTrap
  split_ifs <;> subst_vars <;> rfl

theorem significantBits_decodeTrap (v : BitVec 8) : significantBits (decodeTrap v) = 0xF0FF := by
  unfold decodeTrap
  split_ifs <;> rfl

theorem keepsOperands_decodeTrap : KeepsOperands w (decodeTrap (bitsAt 0 8 w)) := by
  refine keepsOperands_of_mask (m := 0x00FF) ?_ (by rw [significantBits_decodeTrap]; decide)
  rw [operandBits_decodeTrap, putAt_bitsAt]
  rfl

end

theorem keepsOperands_decode (w : Word) : KeepsOperands w (decode w) := by
  unfold decode
  split
  case h_2 | h_6 => split; exacts [keepsOperands_addI ‹_›, keepsOperands_addR ‹_›]
  case h_5 => split; exacts [keepsOperands_jsr ‹_›, keepsOperands_jsrr ‹_›]
  case h_9 | h_14 => exact keepsOperands_of_mask (m := 0) BitVec.and_zero.symm rfl
  case h_10 => exact keepsOperands_notR
  case h_13 => exact keepsOperands_decodeJmp
  case h_16 => exact keepsOperands_decodeTrap
  all_goals
    refine keepsOperands_of_mask (m := 0x0FFF) ?_ rfl
    simp only [operandBits, regAt, toBits_ofBits, putAt_bitsAt, putAt_ofBool, ← BitVec.and_or_distrib_left]
    rfl

/-- The word of what `w` decodes to agrees with `w` on the significant bits (R110). -/
theorem encode_decode_agree (w : Word) :
    encode (decode w) &&& significantBits (decode w) = w &&& significantBits (decode w) := by
  have hops : operandBits (decode w) &&& significantBits (decode w) = w &&& (0x0FFF &&& significantBits (decode w)) :=
    keepsOperands_decode w
  have hmask : putAt 12 (BitVec.allOnes 4) ||| 0x0FFF = BitVec.allOnes 16 := by decide
  rw [encode, opcode_decode, putAt_bitsAt, BitVec.and_or_distrib_right, hops, BitVec.and_assoc,
    ← BitVec.and_or_distrib_left, ← BitVec.and_or_distrib_right, hmask, BitVec.allOnes_and]

/-! ## The obligations -/

/-- Settles O1: the instruction's own word agrees with itself. -/
theorem decodeInvertsEncode : Obligations.DecodeInvertsEncode :=
  fun _ hi => decode_of_agree hi rfl

/-- Settles O2: both halves follow the branches of `decode`. -/
theorem decodeLosesNoSignificantBit : Obligations.DecodeLosesNoSignificantBit :=
  fun w => ⟨wellFormed_decode w, encode_decode_agree w⟩

/-- Settles O3: the other word agrees with the word of what the first one decodes to. -/
theorem ignoredBitsDoNotMatter : Obligations.IgnoredBitsDoNotMatter :=
  fun w _ h => decode_of_agree (wellFormed_decode w) (h.trans (encode_decode_agree w).symm)

/-- Settles O4, by running the decoder on each word. -/
theorem wordsOfTheSpecDecode : Obligations.WordsOfTheSpecDecode := by
  unfold Obligations.WordsOfTheSpecDecode
  decide

end Sys2Proof.Machine

/-! # Proofs of the family 40_step_and_common: the step, sign extension and the condition flags -/

namespace Sys2Proof.Machine

/-! ## Sign extension -/

/-- A field is the low end of its extension. -/
theorem sext_getLsbD_of_lt {n : Nat} (h : n ≤ 16) (f : BitVec n) {k : Nat} (hk : k < n) :
    (sext f).getLsbD k = f.getLsbD k := by
  have hword : k < 16 := by omega
  rw [sext, BitVec.getLsbD_signExtend, if_pos hk, decide_eq_true hword, Bool.true_and]

/-- Cutting the extension back gives the field. -/
theorem setWidth_sext {n : Nat} (h : n ≤ 16) (f : BitVec n) : (sext f).setWidth n = f := by
  refine BitVec.eq_of_getLsbD_eq fun k hk => ?_
  rw [BitVec.getLsbD_setWidth, sext_getLsbD_of_lt h f hk, decide_eq_true hk, Bool.true_and]

/-- A field with top bit 0 is extended with zeros. -/
theorem sext_of_top_clear {n : Nat} {f : BitVec n} (h : f.getLsbD (n - 1) = false) : sext f = f.setWidth 16 :=
  BitVec.signExtend_eq_setWidth_of_msb_false (f.msb_eq_getLsbD_last.trans h)

/-- A field with top bit 1 is extended with ones. -/
theorem sext_of_top_set {n : Nat} {f : BitVec n} (h : f.getLsbD (n - 1) = true) :
    sext f = f.setWidth 16 ||| (0xFFFF#16 <<< n) := by
  have hmsb : f.msb = true := f.msb_eq_getLsbD_last.trans h
  have hones : 0xFFFF#16 = BitVec.allOnes 16 := rfl
  refine BitVec.eq_of_getLsbD_eq fun k hk => ?_
  rw [sext, BitVec.getLsbD_signExtend, hmsb, BitVec.getLsbD_or, BitVec.getLsbD_setWidth, BitVec.getLsbD_shiftLeft, hones,
    BitVec.getLsbD_allOnes]
  by_cases hkn : k < n
  · simp [hk, hkn]
  · have habove : k - n < 16 := by omega
    simp [hk, hkn, habove]

/-- Sign extension copies the top bit of the field into every higher bit (R133). -/
theorem sext_eq_ite {n : Nat} (f : BitVec n) :
    sext f = if f.getLsbD (n - 1) then f.setWidth 16 ||| (0xFFFF#16 <<< n) else f.setWidth 16 := by
  split
  · exact sext_of_top_set ‹_›
  · exact sext_of_top_clear (Bool.eq_false_of_not_eq_true ‹_›)

/-- Extension keeps the signed value of the field (R134). -/
theorem sext_toInt {n : Nat} (h : n ≤ 16) (f : BitVec n) :
    (sext f).toInt = if f.toNat < 2 ^ (n - 1) then (f.toNat : Int) else (f.toNat : Int) - (2 ^ n : Nat) := by
  rw [sext, BitVec.toInt_signExtend_of_le h, BitVec.toInt_eq_msb_cond, BitVec.msb_eq_decide]
  by_cases hlow : f.toNat < 2 ^ (n - 1)
  · simp [hlow]
  · simp [hlow, Nat.le_of_not_lt hlow]

/-- Settles O6: the three laws are lemmas above, none of which needs the field to have a bit. -/
theorem signExtensionLaws : Obligations.SignExtensionLaws :=
  fun _ f _ h => ⟨setWidth_sext h f, sext_of_top_clear, sext_toInt h f⟩

/-- Settles O5: `sext_eq_ite` at each of the four widths. -/
theorem signExtensionCopiesTheTopBit : Obligations.SignExtensionCopiesTheTopBit :=
  ⟨sext_eq_ite, sext_eq_ite, sext_eq_ite, sext_eq_ite⟩

/-! ## The flags of a value -/

/-- Bit 15 is the sign of a word. -/
theorem toInt_neg_iff_bit15 (v : Word) : v.toInt < 0 ↔ v.getLsbD 15 = true := by
  rw [← v.msb_eq_getLsbD_last, BitVec.msb_eq_toInt, decide_eq_true_iff]

theorem toInt_eq_zero_iff (v : Word) : v.toInt = 0 ↔ v = 0 := BitVec.toInt_inj (y := 0#16)

theorem ccOf_of_neg {v : Word} (h : v.toInt < 0) : ccOf v = ccN := by
  have hne : v ≠ 0 := fun h0 => absurd ((toInt_eq_zero_iff v).mpr h0) (Int.ne_of_lt h)
  exact (if_neg hne).trans (if_pos ((toInt_neg_iff_bit15 v).mp h))

theorem ccOf_of_pos {v : Word} (h : 0 < v.toInt) : ccOf v = ccP := by
  have hne : v ≠ 0 := fun h0 => absurd ((toInt_eq_zero_iff v).mpr h0) (Int.ne_of_gt h)
  have hclear : ¬ v.getLsbD 15 = true := fun h15 => Int.lt_asymm h ((toInt_neg_iff_bit15 v).mpr h15)
  exact (if_neg hne).trans (if_neg hclear)

/-- The flags of a value tell its sign and nothing else. -/
theorem ccOf_eq_iff (v : Word) :
    (v.toInt < 0 ↔ ccOf v = ccN) ∧ (v.toInt = 0 ↔ ccOf v = ccZ) ∧ (0 < v.toInt ↔ ccOf v = ccP) := by
  have distinct : ccN ≠ ccZ ∧ ccN ≠ ccP ∧ ccZ ≠ ccP := by decide
  obtain ⟨hNZ, hNP, hZP⟩ := distinct
  rcases Int.lt_trichotomy v.toInt 0 with h | h | h
  · simp [ccOf_of_neg h, h, hNZ, hNP, Int.ne_of_lt h, Int.le_of_lt h]
  · rw [(toInt_eq_zero_iff v).mp h]
    decide
  · simp [ccOf_of_pos h, h, hNP.symm, hZP.symm, Int.ne_of_gt h, Int.le_of_lt h]

/-- Settles O7: bit 15 is the sign, the sign is told by the flags, and `SetCC` writes the flags only. -/
theorem setCCFollowsTheSign : Obligations.SetCCFollowsTheSign := by
  intro s v
  obtain ⟨hneg, hzero, hpos⟩ := ccOf_eq_iff v
  refine ⟨fun h0 => ?_, fun h15 => ?_, fun hne hclear => ?_, hneg, hzero, hpos, rfl, fun _ => rfl, rfl, fun _ => rfl,
    ⟨⟨rfl, rfl, rfl, rfl⟩, rfl, rfl⟩⟩
  · exact hzero.mp ((toInt_eq_zero_iff v).mpr h0)
  · exact hneg.mp ((toInt_neg_iff_bit15 v).mpr h15)
  · have hnonneg : ¬ v.toInt < 0 := fun h => absurd (hclear.symm.trans ((toInt_neg_iff_bit15 v).mp h)) nofun
    have hnonzero : v.toInt ≠ 0 := fun h => hne ((toInt_eq_zero_iff v).mp h)
    exact hpos.mp (by omega)

/-! ## The step -/

/-- A fetch is a `MemRead` at the pc, then the increment (R130, R132). -/
theorem State.fetch_eq_memRead (s : State) : s.fetch = ((s.memRead s.pc).1, (s.memRead s.pc).2.setPc (s.pc + 1)) :=
  Prod.ext s.fetch_fst s.fetch_snd

/-- Settles O46: what the fetch is, in general and away from `KBSR_ADDR`. -/
theorem stepRunsTheDecodedInstruction : Obligations.StepRunsTheDecodedInstruction := fun s hrun hp =>
  ⟨step_of_fetch s.fetch_eq_memRead hrun hp, fun hpc => step_of_fetch (State.fetch_of_ne hpc) hrun hp⟩

/-- Settles O47: a step that answers a next state started from RUNNING. -/
theorem noStepAfterTheEnd : Obligations.NoStepAfterTheEnd := by
  intro s hend t e
  obtain ⟨hrun, -⟩ := step_cases e
  exact hend hrun

end Sys2Proof.Machine

/-! # Proofs of the family 41_operate: ADD, AND and NOT define their destination, and their results are the 16-bit ones -/

namespace Sys2Proof.Machine

/-! ## A definition of a register and its frame -/

/-- What a register-defining instruction does last changes its destination and the flags only (R137). -/
theorem State.define_definesOnly (s : State) (dst : Reg) (v : Word) : DefinesOnly s (s.define dst v) dst v where
  value := by simp
  flags := rfl
  otherRegs _ hr := by simp [State.setReg_reg_of_ne s hr]
  pc := rfl
  cells _ := rfl
  rest := ⟨⟨rfl, rfl, rfl, rfl⟩, rfl, rfl⟩

/-! ## What each operate instruction answers -/

theorem exec_addR (dst src1 src2 : Reg) (s : State) :
    exec (.addR dst src1 src2) s = .next (s.define dst (s.reg src1 + s.reg src2)) := rfl

theorem exec_addI (dst src1 : Reg) (imm5 : BitVec 5) (s : State) :
    exec (.addI dst src1 imm5) s = .next (s.define dst (s.reg src1 + sext imm5)) := rfl

theorem exec_andR (dst src1 src2 : Reg) (s : State) :
    exec (.andR dst src1 src2) s = .next (s.define dst (s.reg src1 &&& s.reg src2)) := rfl

theorem exec_andI (dst src1 : Reg) (imm5 : BitVec 5) (s : State) :
    exec (.andI dst src1 imm5) s = .next (s.define dst (s.reg src1 &&& sext imm5)) := rfl

theorem exec_notR (dst src : Reg) (s : State) :
    exec (.notR dst src) s = .next (s.define dst (~~~ s.reg src)) := rfl

/-- Settles O17: both modes end in `State.define`, whose frame is `State.define_definesOnly`. -/
theorem addDefinesTheSum : Obligations.AddDefinesTheSum :=
  ⟨fun dst src1 src2 s => ⟨_, exec_addR dst src1 src2 s, s.define_definesOnly dst _⟩,
    fun dst src1 imm5 s => ⟨_, exec_addI dst src1 imm5 s, s.define_definesOnly dst _⟩⟩

/-- Settles O18: both modes end in `State.define`, as those of ADD do. -/
theorem andDefinesTheConjunction : Obligations.AndDefinesTheConjunction :=
  ⟨fun dst src1 src2 s => ⟨_, exec_andR dst src1 src2 s, s.define_definesOnly dst _⟩,
    fun dst src1 imm5 s => ⟨_, exec_andI dst src1 imm5 s, s.define_definesOnly dst _⟩⟩

/-- Settles O19: NOT ends in `State.define`, whose frame is `State.define_definesOnly`. -/
theorem notDefinesTheComplement : Obligations.NotDefinesTheComplement := fun dst src s =>
  ⟨_, exec_notR dst src s, s.define_definesOnly dst _⟩

/-! ## The results are 16-bit words (R155) -/

section
variable {s t : State} {dst : Reg} {x y : Word}

/-- The flags are those of the destination's new content. -/
theorem DefinesOnly.cond_eq (h : DefinesOnly s t dst x) : t.cond = ccOf (t.reg dst) := by
  rw [h.value, h.flags]

/-- A defined sum is the low 16 bits of the mathematical one, the operands read as unsigned or as two's complement. -/
theorem DefinesOnly.sum (h : DefinesOnly s t dst (x + y)) :
    (t.reg dst).toNat = (x.toNat + y.toNat) % 65536 ∧ t.reg dst = BitVec.ofInt 16 (x.toInt + y.toInt) ∧
      t.cond = ccOf (t.reg dst) := by
  have signed : BitVec.ofInt 16 (x.toInt + y.toInt) = x + y := by
    rw [BitVec.ofInt_add, BitVec.ofInt_toInt, BitVec.ofInt_toInt]
  exact ⟨by rw [h.value, BitVec.toNat_add], by rw [h.value, signed], h.cond_eq⟩

/-- A defined conjunction is one bit by bit. -/
theorem DefinesOnly.conjunction (h : DefinesOnly s t dst (x &&& y)) :
    (∀ k : Nat, (t.reg dst).getLsbD k = (x.getLsbD k && y.getLsbD k)) ∧ t.cond = ccOf (t.reg dst) :=
  ⟨fun k => by rw [h.value, BitVec.getLsbD_and], h.cond_eq⟩

/-- A defined complement inverts each of the 16 bits. -/
theorem DefinesOnly.complement (h : DefinesOnly s t dst (~~~ x)) :
    (∀ k : Nat, k < 16 → (t.reg dst).getLsbD k = !x.getLsbD k) ∧ t.cond = ccOf (t.reg dst) :=
  ⟨fun k hk => by simp [h.value, hk], h.cond_eq⟩

end

/-- Settles O20: what ADD, AND and NOT define, read as numbers and bit by bit. -/
theorem aluResultsAreSixteenBits : Obligations.AluResultsAreSixteenBits := by
  obtain ⟨addR, addI⟩ := addDefinesTheSum
  obtain ⟨andR, andI⟩ := andDefinesTheConjunction
  exact ⟨fun d a b s => (addR d a b s).imp fun _ ⟨e, h⟩ => ⟨e, h.sum⟩,
    fun d a i s => (addI d a i s).imp fun _ ⟨e, h⟩ => ⟨e, h.sum⟩,
    fun d a b s => (andR d a b s).imp fun _ ⟨e, h⟩ => ⟨e, h.conjunction⟩,
    fun d a i s => (andI d a i s).imp fun _ ⟨e, h⟩ => ⟨e, h.conjunction⟩,
    fun d a s => (notDefinesTheComplement d a s).imp fun _ ⟨e, h⟩ => ⟨e, h.complement⟩⟩

/-- Settles O21: the second operand is the same word in both modes. -/
theorem immediateAndRegisterModeAgree : Obligations.ImmediateAndRegisterModeAgree := fun d a b i s hb =>
  ⟨_, _, exec_addR d a b s, by rw [exec_addI, ← hb], exec_andR d a b s, by rw [exec_andI, ← hb]⟩

end Sys2Proof.Machine

/-! # Proofs of the family 42_control: BR, JMP and RET change the pc alone, JSR and JSRR the pc and R7 -/

namespace Sys2Proof.Machine

/-! ## A jump, a call and their frames -/

theorem State.setPc_jumpsOnly (s : State) (v : Word) : JumpsOnly s (s.setPc v) v where
  pc := rfl
  regs _ := rfl
  cond := rfl
  cells _ := rfl
  rest := ⟨⟨rfl, rfl, rfl, rfl⟩, rfl, rfl⟩

/-- The registers after the link: the return address is read through R7 and no other (R318). -/
theorem State.link_reg (s : State) (q : Reg) : s.link.reg q = if q = .r7 then s.pc else s.reg q :=
  s.setReg_reg .r7 q s.pc

/-- The link and a jump after it change R7 and the pc only (R172, R173). -/
theorem State.link_setPc_callsOnly (s : State) (v : Word) : CallsOnly s (s.link.setPc v) s.pc v where
  link := s.link_reg .r7
  pc := rfl
  otherRegs r hr := (s.link_reg r).trans (if_neg hr)
  cond := rfl
  cells _ := rfl
  rest := ⟨⟨rfl, rfl, rfl, rfl⟩, rfl, rfl⟩

/-! ## What each control transfer answers -/

/-- BR that is not taken falls through (R170). -/
theorem exec_br_of_clear {n z p : Bool} {s : State} (h : brMask n z p &&& s.cond = 0b000#3) (off9 : BitVec 9) :
    exec (.br n z p off9) s = .next s :=
  congrArg Host.Outcome.next (if_pos h)

/-- BR that is taken jumps PC-relative (R170). -/
theorem exec_br_of_set {n z p : Bool} {s : State} (h : brMask n z p &&& s.cond ≠ 0b000#3) (off9 : BitVec 9) :
    exec (.br n z p off9) s = .next (s.setPc (s.pc + sext off9)) :=
  congrArg Host.Outcome.next (if_neg h)

theorem exec_jmp (base : Reg) (s : State) : exec (.jmp base) s = .next (s.setPc (s.reg base)) := rfl

theorem exec_ret (s : State) : exec .ret s = .next (s.setPc (s.reg .r7)) := rfl

theorem exec_jsr (off11 : BitVec 11) (s : State) :
    exec (.jsr off11) s = .next (s.link.setPc (s.pc + sext off11)) := rfl

theorem exec_jsrr (base : Reg) (s : State) : exec (.jsrr base) s = .next (s.link.setPc (s.link.reg base)) := rfl

/-! ## The mask of BR and the flags -/

/-- The mask meets the flags exactly when it names one that is set: bit 2 is N, bit 1 Z and bit 0 P. -/
theorem brMask_and_ne_zero_iff (n z p : Bool) (c : BitVec 3) : brMask n z p &&& c ≠ 0b000#3 ↔
    ((n && c.getLsbD 2) || (z && c.getLsbD 1) || (p && c.getLsbD 0)) = true := by
  revert n z p c
  decide

/-- The mask that names every flag meets each of the three one-flag values. -/
theorem brMask_all_and_ne_zero {c : BitVec 3} (h : oneFlag c) : brMask true true true &&& c ≠ 0b000#3 := by
  rcases h with rfl | rfl | rfl <;> decide

/-! ## The obligations -/

/-- Settles O22: a BR that falls through is a jump to the pc it is given. -/
theorem brJumpsOnANamedFlag : Obligations.BrJumpsOnANamedFlag := by
  intro n z p off9 s
  split
  next h => exact ⟨_, exec_br_of_set ((brMask_and_ne_zero_iff n z p s.cond).mpr h) off9, s.setPc_jumpsOnly _⟩
  next h =>
    have clear : brMask n z p &&& s.cond = 0b000#3 := not_not.mp (mt (brMask_and_ne_zero_iff n z p s.cond).mp h)
    exact ⟨_, exec_br_of_clear clear off9, s.setPc_jumpsOnly s.pc⟩

/-- Settles O23: a mask or flags that are zero meet nothing, and the full mask meets any one flag. -/
theorem brWithNoFlagNamedOrSetFallsThrough : Obligations.BrWithNoFlagNamedOrSetFallsThrough := by
  refine ⟨fun off9 s => ?_, fun n z p off9 s hcond => ?_, fun off9 s hflag => ?_⟩
  · exact exec_br_of_clear BitVec.zero_and off9
  · exact exec_br_of_clear (by rw [hcond, BitVec.and_zero]) off9
  · exact exec_br_of_set (brMask_all_and_ne_zero hflag) off9

/-- Settles O24: both write the base register to the pc, and `State.setPc_jumpsOnly` is the frame. -/
theorem jmpGoesToTheBase : Obligations.JmpGoesToTheBase :=
  ⟨fun base s => ⟨_, exec_jmp base s, s.setPc_jumpsOnly _⟩, fun s => ⟨_, exec_ret s, s.setPc_jumpsOnly _⟩⟩

/-- Settles O25: the link, then the write of the pc. -/
theorem jsrLinksAndJumps : Obligations.JsrLinksAndJumps := fun off11 s =>
  ⟨_, exec_jsr off11 s, s.link_setPc_callsOnly _⟩

/-- Settles O26: the target is read from the registers after the link (`State.link_reg`). -/
theorem jsrrLinksBeforeItReadsTheBase : Obligations.JsrrLinksBeforeItReadsTheBase := fun base s =>
  ⟨_, exec_jsrr base s, s.link_reg base ▸ s.link_setPc_callsOnly _⟩

end Sys2Proof.Machine

/-! # Proofs of the family 43_load: LD, LDR and LDI are `MemRead`s and a definition, LEA is a definition alone -/

namespace Sys2Proof.Machine

/-! ## A load and its frame -/

section
variable {s t : State} {dst : Reg} {a v : Word} {r : Word × State}

/-- A load whose reads left the state alone defines the word read and does nothing else. -/
theorem loadsOnly_self_iff : LoadsOnly s t dst (v, s) ↔ DefinesOnly s t dst v where
  mp h := { value := h.value, flags := h.flags, otherRegs := h.otherRegs, pc := h.pc, cells := h.cells,
            rest := ⟨h.mode, h.input, h.output⟩ }
  mpr h := { value := h.value, flags := h.flags, otherRegs := h.otherRegs, pc := h.pc, cells := h.cells,
             input := h.rest.input, output := h.rest.output, mode := h.rest.mode }

/-- A read before a load is part of the load: it changes only cells and input, which `r` accounts for. -/
theorem LoadsOnly.of_polled (h : LoadsOnly (s.polled a) t dst r) : LoadsOnly s t dst r where
  value := h.value
  flags := h.flags
  otherRegs u hu := (h.otherRegs u hu).trans (s.polled_reg a u)
  pc := h.pc.trans (s.polled_pc a)
  cells := h.cells
  input := h.input
  output := h.output.trans (s.polled_output a)
  mode :=
    { run := h.mode.run.trans (s.polled_run a)
      pending := h.mode.pending.trans (s.polled_pending a)
      reports := h.mode.reports.trans (s.polled_reports a)
      cfg := h.mode.cfg.trans (s.polled_cfg a) }

/-- A `MemRead` away from `KBSR_ADDR` gives the cell's content and has no device effect (R51, R54). -/
theorem State.memRead_of_ne (h : a ≠ s.cfg.kbsrAddr) : s.memRead a = (s.peek a, s) := by
  rw [State.memRead, State.polled_of_ne h]

/-- A load away from `KBSR_ADDR` defines the cell's content and does nothing else. -/
theorem LoadsOnly.definesOnly (h : LoadsOnly s t dst (s.memRead a)) (ha : a ≠ s.cfg.kbsrAddr) :
    DefinesOnly s t dst (s.peek a) :=
  loadsOnly_self_iff.mp (State.memRead_of_ne ha ▸ h)

end

/-- A load is one `MemRead` and the definition of its word. -/
theorem State.loadFrom_loadsOnly (s : State) (dst : Reg) (ea : Word) :
    LoadsOnly s (s.loadFrom dst ea) dst (s.memRead ea) :=
  (loadsOnly_self_iff.mpr ((s.polled ea).define_definesOnly dst ((s.polled ea).peek ea))).of_polled

/-! ## What each load answers -/

theorem exec_ld (dst : Reg) (off9 : BitVec 9) (s : State) :
    exec (.ld dst off9) s = .next (s.loadFrom dst (s.pc + sext off9)) := rfl

theorem exec_ldr (dst base : Reg) (off6 : BitVec 6) (s : State) :
    exec (.ldr dst base off6) s = .next (s.loadFrom dst (s.reg base + sext off6)) := rfl

theorem exec_ldi (dst : Reg) (off9 : BitVec 9) (s : State) : exec (.ldi dst off9) s =
    .next ((s.memRead (s.pc + sext off9)).2.loadFrom dst (s.memRead (s.pc + sext off9)).1) := rfl

theorem exec_lea (dst : Reg) (off9 : BitVec 9) (s : State) :
    exec (.lea dst off9) s = .next (s.define dst (s.pc + sext off9)) := rfl

/-! ## The obligations -/

/-- Settles O27: both are one `State.loadFrom`, at a PC-relative and at a base-plus-offset address. -/
theorem ldAndLdrLoadTheCell : Obligations.LdAndLdrLoadTheCell := by
  refine ⟨fun dst off9 s => ?_, fun dst base off6 s => ?_⟩
  · have load := s.loadFrom_loadsOnly dst (s.pc + sext off9)
    exact ⟨_, exec_ld dst off9 s, load, load.definesOnly⟩
  · have load := s.loadFrom_loadsOnly dst (s.reg base + sext off6)
    exact ⟨_, exec_ldr dst base off6 s, load, load.definesOnly⟩

/-- Settles O28: a load from the state the read of the pointer left; with no poll at the pointer that state is `s` itself. -/
theorem ldiLoadsThroughThePointer : Obligations.LdiLoadsThroughThePointer := by
  intro dst off9 s
  have load := ((s.memRead (s.pc + sext off9)).2.loadFrom_loadsOnly dst (s.memRead (s.pc + sext off9)).1).of_polled
  refine ⟨_, exec_ldi dst off9 s, load, fun hpointer htarget => ?_⟩
  rw [State.memRead_of_ne hpointer] at load ⊢
  exact load.definesOnly htarget

/-- Settles O29: LEA ends in `State.define`, with no `MemRead` before it. -/
theorem leaDefinesTheAddress : Obligations.LeaDefinesTheAddress := fun dst off9 s =>
  ⟨_, exec_lea dst off9 s, s.define_definesOnly dst _⟩

end Sys2Proof.Machine

/-! # Proofs of the family 44_store: ST and STR are one `MemWrite`, STI is one `MemRead` and one `MemWrite` -/

namespace Sys2Proof.Machine

/-! ## Frames in sequence -/

section
variable {s u t : State}

theorem SameCore.trans (h : SameCore s u) (h' : SameCore u t) : SameCore s t where
  regs r := (h'.regs r).trans (h.regs r)
  pc := h'.pc.trans h.pc
  cond := h'.cond.trans h.cond

theorem SameMode.trans (h : SameMode s u) (h' : SameMode u t) : SameMode s t where
  run := h'.run.trans h.run
  pending := h'.pending.trans h.pending
  reports := h'.reports.trans h.reports
  cfg := h'.cfg.trans h.cfg

end

/-! ## A store and its frame -/

/-- A write of memory in canonical form is a store (R52). -/
theorem State.memWrite_storesOnly {s : State} (hs : s.mem.wf = true) (a v : Word) : StoresOnly s (s.memWrite a v) a v :=
  (memWriteStoresOneCell s a v hs).1

/-! ## What each store answers -/

theorem exec_st (src : Reg) (off9 : BitVec 9) (s : State) :
    exec (.st src off9) s = .next (s.memWrite (s.pc + sext off9) (s.reg src)) := rfl

theorem exec_str (src base : Reg) (off6 : BitVec 6) (s : State) :
    exec (.str src base off6) s = .next (s.memWrite (s.reg base + sext off6) (s.reg src)) := rfl

/-- The read of the pointer writes no register, so the source holds what it held before it (R211). -/
theorem exec_sti (src : Reg) (off9 : BitVec 9) (s : State) : exec (.sti src off9) s =
    .next ((s.memRead (s.pc + sext off9)).2.memWrite (s.memRead (s.pc + sext off9)).1 (s.reg src)) := by
  rw [← s.polled_reg (s.pc + sext off9) src]
  rfl

/-! ## The obligations -/

/-- Settles O30: both are one `MemWrite`, at a PC-relative and at a base-plus-offset address. -/
theorem stAndStrStoreOneCell : Obligations.StAndStrStoreOneCell :=
  ⟨fun src off9 s hs => ⟨_, exec_st src off9 s, State.memWrite_storesOnly hs _ _⟩,
    fun src base off6 s hs => ⟨_, exec_str src base off6 s, State.memWrite_storesOnly hs _ _⟩⟩

/-- Settles O31: the frame of the read of the pointer and that of the write, in sequence; with no poll at the pointer the read
leaves `s` itself. -/
theorem stiStoresThroughThePointer : Obligations.StiStoresThroughThePointer := by
  intro src off9 s hs
  obtain ⟨-, core, mode, output, -, -, -⟩ := memReadPollsTheStatusCellOnly s (s.pc + sext off9) hs
  have store := State.memWrite_storesOnly (State.polled_wf hs (s.pc + sext off9)) (s.memRead (s.pc + sext off9)).1
    (s.reg src)
  refine ⟨_, exec_sti src off9 s, store, core.trans store.same, mode.trans store.rest.mode,
    store.rest.output.trans output, fun hpointer => ?_⟩
  rw [State.memRead_of_ne hpointer]
  exact State.memWrite_storesOnly hs _ _

end Sys2Proof.Machine

/-! # Proofs of the family 45_trap: what each TRAP routine reads, writes and leaves alone -/

namespace Sys2Proof.Machine

/-! ## Updates in sequence -/

theorem State.emit_nil (s : State) : s.emit [] = s := by
  simp [State.emit]

theorem State.emit_append (s : State) (es fs : List OutEvent) : (s.emit es).emit fs = s.emit (es ++ fs) := by
  simp [State.emit]

/-- A cell written with what it holds leaves memory in canonical form as it was. -/
theorem State.memWrite_self {s : State} (hs : s.mem.wf = true) (a : Word) : s.memWrite a (s.peek a) = s := by
  have hmem : s.mem.write a.toNat (s.peek a) = s.mem := by
    refine Memory.ext_of_read (Memory.write_wf hs a.isLt) hs fun x _ => ?_
    rw [Memory.read_write hs]
    split
    · subst x; rfl
    · rfl
  rw [State.memWrite, hmem]

/-! ## What each routine answers -/

theorem exec_trapGetc (s : State) : exec .trapGetc s = .next s.runGetc := rfl

theorem exec_trapIn (s : State) : exec .trapIn s = .next (s.emit (s.cfg.inPrompt.map .byte)).runIn := rfl

theorem exec_trapOut (s : State) :
    exec .trapOut s = .next (s.emit [.byte ((s.reg .r0).setWidth 8), .flush]) := by
  rw [← lowByte_eq_setWidth]
  exact congrArg Host.Outcome.next (s.emit_append [.byte (lowByte (s.reg .r0))] [.flush])

theorem exec_trapPuts (s : State) : exec .trapPuts s = .next (s.runString .puts (s.reg .r0)) := rfl

theorem exec_trapPutsp (s : State) : exec .trapPutsp s = .next (s.runString .putsp (s.reg .r0)) := rfl

theorem exec_trapHalt (s : State) : exec .trapHalt s =
    .next (((s.emit (s.cfg.haltNotice.map .byte)).emit [.flush]).setRun .halted) := rfl

theorem exec_trapOther (vect : BitVec 8) (s : State) : exec (.trapOther vect) s = .next s := rfl

/-! ## GETC, IN, OUT, HALT and the other vectors -/

/-- Input taken, output written, R0 loaded and no routine left in progress: a read routine's frame. -/
theorem State.takesByte (s : State) (b : Byte) (rest : List InEvent) (out : List OutEvent) :
    TakesByte s ((((s.setInput rest).emit out).setReg .r0 (zext16 b)).setPending none) b rest out where
  value := by rw [State.setPending_reg, State.setReg_reg_self, zext16]
  otherRegs _ hr := State.setReg_reg_of_ne _ hr _
  pc := rfl
  cond := rfl
  cells _ := rfl
  input := rfl
  output := rfl
  done := rfl
  run := rfl
  reports := rfl
  cfg := rfl

/-- Settles O32: GETC is `State.runGetc`, which with a byte to come writes no output. -/
theorem getcReadsOneByte : Obligations.GetcReadsOneByte := by
  intro s b rest h
  have taken := s.takesByte b rest []
  rw [State.emit_nil] at taken
  exact ⟨_, exec_trapGetc s, State.runGetc_of_some h ▸ taken⟩

/-- Settles O33: the prompt stands before what `State.runIn` writes. -/
theorem inPromptsReadsAndEchoes : Obligations.InPromptsReadsAndEchoes := by
  intro s b rest h
  have taken := s.takesByte b rest (s.cfg.inPrompt.map .byte ++ [.byte b, .flush])
  rw [← State.emit_append] at taken
  have hrun := State.runIn_of_some (s := s.emit (s.cfg.inPrompt.map .byte)) h
  exact ⟨_, exec_trapIn s, hrun ▸ taken⟩

/-- Output alone has the frame of a string routine that reads nothing. -/
theorem State.emit_writesString (s : State) (out : List OutEvent) : WritesString s s (s.emit out) out s.pending :=
  writesString_of_readWords (n := 0) (a := s.pc) rfl out s.pending

/-- Settles O36: OUT is output alone. -/
theorem outWritesTheLowByte : Obligations.OutWritesTheLowByte := fun s =>
  ⟨_, exec_trapOut s, s.emit_writesString _⟩

/-- Settles O42: HALT is output and the end of the run. -/
theorem haltWritesTheNoticeAndHalts : Obligations.HaltWritesTheNoticeAndHalts := fun s =>
  ⟨_, exec_trapHalt s, rfl, rfl, ⟨fun _ => rfl, rfl, rfl⟩, fun _ => rfl, rfl, rfl, rfl, rfl⟩

/-- Settles O43: the meaning of any other vector is the state itself. -/
theorem otherVectorsDoNothing : Obligations.OtherVectorsDoNothing := exec_trapOther

/-! ## The frame of all TRAP rows -/

/-- The rows of the opcode 1111 (R97, R230). -/
theorem trap_rows {i : Instr} (h : opcode i = 0xF#4) :
    i = .trapGetc ∨ i = .trapOut ∨ i = .trapPuts ∨ i = .trapIn ∨ i = .trapPutsp ∨ i = .trapHalt ∨
      ∃ v, i = .trapOther v := by
  cases i <;> simp [opcode] at h ⊢

/-- A property of states that the updates of the TRAP routines keep is kept by every TRAP: of the registers they write only
R0, and they write neither the pc nor the flags (R230). -/
theorem exec_trap_induct {P : State → Prop} {i : Instr} (hop : opcode i = 0xF#4) {s t : State} (e : exec i s = .next t)
    (h : P s) (hreg : ∀ s v, P s → P (s.setReg .r0 v)) (hrun : ∀ s r, P s → P (s.setRun r))
    (hp : ∀ s p, P s → P (s.setPending p)) (hm : ∀ s a v, P s → P (s.memWrite a v))
    (hi : ∀ s es, P s → P (s.setInput es)) (ho : ∀ s es, P s → P (s.emit es)) : P t := by
  have resume : ∀ r s, P s → P (State.resume r s) := fun r s hs => State.resume_induct r s hs hreg hp hm hi ho
  rcases trap_rows hop with rfl | rfl | rfl | rfl | rfl | rfl | ⟨v, rfl⟩ <;> cases e
  · exact resume .getc s h
  · exact ho _ _ (ho _ _ h)
  · exact resume (.string .puts _) s h
  · exact resume .inn _ (ho _ _ h)
  · exact resume (.string .putsp _) s h
  · exact hrun _ _ (ho _ _ (ho _ _ h))
  · exact h

/-- R1 to R7, the pc, the flags, the abort reports and the parameters are as before. -/
def SameButR0 (s t : State) : Prop :=
  (∀ r, r ≠ .r0 → t.reg r = s.reg r) ∧ t.pc = s.pc ∧ t.cond = s.cond ∧ t.reports = s.reports ∧ t.cfg = s.cfg

theorem exec_trap_sameButR0 {i : Instr} (hop : opcode i = 0xF#4) {s t : State} (e : exec i s = .next t) :
    SameButR0 s t := by
  refine exec_trap_induct (P := SameButR0 s) hop e ⟨fun _ _ => rfl, rfl, rfl, rfl, rfl⟩ ?setReg
    (fun _ _ h => h) (fun _ _ h => h) (fun _ _ _ h => h) (fun _ _ h => h) (fun _ _ h => h)
  case setReg =>
    intro u v ⟨hregs, hrest⟩
    exact ⟨fun r hr => (u.setReg_reg_of_ne hr v).trans (hregs r hr), hrest⟩

/-- No TRAP has an explicit `MemWrite` (R57). -/
theorem storeAddress_of_trap {i : Instr} (hop : opcode i = 0xF#4) (s : State) : storeAddress i s = none := by
  rcases trap_rows hop with rfl | rfl | rfl | rfl | rfl | rfl | ⟨v, rfl⟩ <;> rfl

/-- Settles O44: `exec_trap_sameButR0`, and the cells by `exec_peek`, since a TRAP stores nowhere. -/
theorem trapRoutinesTouchOnlyR0 : Obligations.TrapRoutinesTouchOnlyR0 := by
  intro i s hs hop
  obtain ⟨t, e⟩ := exec_next i s
  obtain ⟨hregs, hpc, hcond, hreports, hcfg⟩ := exec_trap_sameButR0 hop e
  have hstore : ∀ a, storeAddress i s ≠ some a := by simp [storeAddress_of_trap hop s]
  exact ⟨t, e, hregs, hpc, hcond, hreports, hcfg, fun a hkbsr hkbdr => exec_peek hs e (hstore a) fun _ => ⟨hkbsr, hkbdr⟩⟩

/-! ## A string in ordinary memory -/

/-- The contents of `n` cells from `a` up, wrapping round. -/
def State.cellsFrom (s : State) (a : Word) (n : Nat) : List Word :=
  (List.range n).map fun k => s.peek (a + BitVec.ofNat 16 k)

theorem State.cellsFrom_succ (s : State) (a : Word) (n : Nat) :
    s.cellsFrom a (n + 1) = s.cellsFrom a n ++ [s.peek (a + BitVec.ofNat 16 n)] := by
  simp [State.cellsFrom, List.range_succ]

@[simp] theorem State.cellsFrom_length (s : State) (a : Word) (n : Nat) : (s.cellsFrom a n).length = n := by
  simp [State.cellsFrom]

theorem State.forall_mem_cellsFrom {p : Word → Prop} {s : State} {a : Word} {n : Nat} :
    (∀ w ∈ s.cellsFrom a n, p w) ↔ ∀ k, k < n → p (s.peek (a + BitVec.ofNat 16 k)) := by
  simp [State.cellsFrom]

/-- One read more. -/
theorem readWords_snoc (n : Nat) (a : Word) (s : State) :
    readWords (n + 1) a s =
      ((readWords n a s).1 ++ [((readWords n a s).2.polled (a + BitVec.ofNat 16 n)).peek (a + BitVec.ofNat 16 n)],
        (readWords n a s).2.polled (a + BitVec.ofNat 16 n)) :=
  readWords_add n 1 a s

/-- Reads that do not meet `KBSR_ADDR` give the cells and change nothing (R51, R54). -/
theorem readWords_of_ne {n : Nat} {a : Word} {s : State} (h : ∀ k, k < n → a + BitVec.ofNat 16 k ≠ s.cfg.kbsrAddr) :
    readWords n a s = (s.cellsFrom a n, s) := by
  induction n with
  | zero => rfl
  | succ n ih =>
    rw [readWords_snoc, ih fun k hk => h k (Nat.lt_succ_of_lt hk), State.polled_of_ne (h n n.lt_succ_self),
      State.cellsFrom_succ]

/-- Settles O38: the reads give the cells and change nothing, and fewer than 65536 of them are within the words one step
reads. -/
theorem putsPrintsAStringInMemory : Obligations.PutsPrintsAStringInMemory := by
  intro s n hn hne hzero hkbsr
  have hreads : readWords (n + 1) (s.reg .r0) s = (s.cellsFrom (s.reg .r0) n ++ [0#16], s) := by
    rw [readWords_of_ne fun k hk => hkbsr k (Nat.le_of_lt_succ hk), State.cellsFrom_succ, hzero]
  have hlt : (s.cellsFrom (s.reg .r0) n).length < walkWords s := by
    rw [State.cellsFrom_length, walkWords]
    omega
  have hrun : s.runString .puts (s.reg .r0) = _ :=
    State.walkString_ends .puts hlt (State.forall_mem_cellsFrom.mpr hne) (by rw [State.cellsFrom_length, hreads])
  rw [puts_bytes_events, State.cellsFrom, List.map_map] at hrun
  exact ⟨_, exec_trapPuts s, hrun ▸ writesString_of_readWords hreads _ none⟩

/-! ## A string with no zero word -/

/-- A step with a routine in progress takes it up again (R279, R316). -/
theorem step_of_pending {s : State} {r : Routine} (hrun : s.run = .running) (hp : s.pending = some r) :
    step s = .next (State.resume r s) := by
  simp only [step, hrun, hp]

/-- After a pass that came back to `x[0]` the next step does what the call did: the pass kept R0. -/
theorem WritesString.step_again {s u t : State} {out : List OutEvent} {k : StringKind}
    (h : WritesString s u t out (some (.string k (s.reg .r0)))) (hrun : s.run = .running) :
    step t = .next (t.runString k (t.reg .r0)) := by
  rw [h.same.regs]
  exact step_of_pending (h.run.trans hrun) h.pending

/-- Settles O39: the pass by `State.runString_goes_on`, and `WritesString.step_again`. -/
theorem aStringWithNoZeroWordGoesOn : Obligations.AStringWithNoZeroWordGoesOn := by
  intro s u ws hw h
  have pass : ∀ k, WritesString s u (s.runString k (s.reg .r0)) ((ws.flatMap k.bytes).map .byte)
      (some (.string k (s.reg .r0))) := by
    intro k
    rw [State.runString_goes_on k hw h]
    exact writesString_of_readWords h _ _
  exact ⟨⟨_, exec_trapPuts s, puts_bytes_events ws ▸ pass .puts, (pass .puts).step_again⟩,
    ⟨_, exec_trapPutsp s, putsp_bytes_events ws ▸ pass .putsp, (pass .putsp).step_again⟩⟩

/-- No cell is zero, no byte is to come, and the ready bit of the status cell is clear: a read takes at most a quiet mark. -/
structure Endless (s : State) : Prop where
  wf : s.mem.wf = true
  cells : ∀ a, s.peek a ≠ 0#16
  noByte : takeByte s.input = none
  clear : s.peek s.cfg.kbsrAddr &&& s.cfg.kbsrReady = 0#16

namespace Endless
variable {s : State}

theorem setInput (h : Endless s) {es : List InEvent} (hes : takeByte es = none) : Endless (s.setInput es) :=
  ⟨h.wf, h.cells, hes, h.clear⟩

/-- A read changes the input at most, and brings no byte to its front. -/
theorem polled (h : Endless s) (a : Word) : ∃ es, takeByte es = none ∧ s.polled a = s.setInput es := by
  by_cases ha : a = s.cfg.kbsrAddr
  · subst a
    rw [State.polled_kbsr]
    have hnone := h.noByte
    obtain ⟨b, es, hin, -⟩ | ⟨es, hin, hpoll⟩ := s.poll_cases
    · simp [hin, takeByte] at hnone
    · refine ⟨es, ?_, ?_⟩
      · rcases hin with hin | ⟨-, rfl⟩
        · simpa [hin, takeByte] using hnone
        · rfl
      · rw [hpoll, and_not_of_clear h.clear]
        exact State.memWrite_self (s := s.setInput es) h.wf s.cfg.kbsrAddr
  · exact ⟨s.input, h.noByte, State.polled_of_ne ha⟩

/-- Reads give the cells and change the input at most. -/
theorem reads (h : Endless s) (n : Nat) (a : Word) :
    ∃ es, takeByte es = none ∧ readWords n a s = (s.cellsFrom a n, s.setInput es) := by
  induction n with
  | zero => exact ⟨s.input, h.noByte, rfl⟩
  | succ n ih =>
    obtain ⟨es, hes, hn⟩ := ih
    obtain ⟨fs, hfs, hp⟩ := (h.setInput hes).polled (a + BitVec.ofNat 16 n)
    refine ⟨fs, hfs, ?_⟩
    rw [readWords_snoc, hn, hp, State.cellsFrom_succ]
    rfl

/-- The reads of one pass use up the quiet marks. -/
theorem reads_pass (h : Endless s) (a : Word) :
    readWords (walkWords s) a s = (s.cellsFrom a (walkWords s), s.setInput []) := by
  obtain ⟨es, -, hreads⟩ := h.reads (walkWords s) a
  have hquiet : Quiet (readWords (walkWords s) a s).2 := laps_quiet (s.input.length + 1) h.wf (Nat.le_succ _) a
  rw [hreads] at hquiet
  obtain rfl : es = [] := hquiet.input
  exact hreads

end Endless

/-- `s` in the middle of the string routine `k` from `a`, the quiet marks used up and `m` words written. -/
def State.afterWords (k : StringKind) (a : Word) (m : Nat) (s : State) : State :=
  ((s.setInput []).emit (((s.cellsFrom a m).flatMap k.bytes).map .byte)).setPending (some (.string k a))

theorem Endless.afterWords {s : State} (h : Endless s) (k : StringKind) (a : Word) (m : Nat) :
    Endless (s.afterWords k a m) :=
  ⟨h.wf, h.cells, rfl, h.clear⟩

theorem Endless.afterWords_writesString {s : State} (h : Endless s) (k : StringKind) (a : Word) (m : Nat) :
    WritesString s (s.setInput []) (s.afterWords k a m) (((s.cellsFrom a m).flatMap k.bytes).map .byte)
      (some (.string k a)) :=
  writesString_of_readWords (h.reads_pass a) _ _

/-- The first pass over a string with no zero word. -/
theorem Endless.runString {s : State} (h : Endless s) (k : StringKind) (a : Word) :
    s.runString k a = s.afterWords k a (walkWords s) :=
  State.runString_goes_on k (State.forall_mem_cellsFrom.mpr fun _ _ => h.cells _) (h.reads_pass a)

/-- A whole number of laps from `a` on, the cells are those from `a` again. -/
theorem State.cellsFrom_add_laps (s : State) (a : Word) {m : Nat} (hm : 65536 ∣ m) (n : Nat) :
    s.cellsFrom a (m + n) = s.cellsFrom a m ++ s.cellsFrom a n := by
  have hlap : BitVec.ofNat 16 m = 0#16 := BitVec.eq_of_toNat_eq (by simpa using Nat.mod_eq_zero_of_dvd hm)
  simp [State.cellsFrom, List.range_add, BitVec.ofNat_add, hlap]

/-- Words written after a whole number of laps are the words from `a` on again. -/
theorem State.afterWords_add_laps (k : StringKind) (a : Word) {m : Nat} (hm : 65536 ∣ m) (n : Nat) (s : State) :
    s.afterWords k a (m + n) = (s.afterWords k a m).emit (((s.cellsFrom a n).flatMap k.bytes).map .byte) := by
  rw [State.afterWords, State.cellsFrom_add_laps s a hm, List.flatMap_append, List.map_append, ← State.emit_append]
  rfl

/-- A pass taken up after a whole number of laps writes two laps more: no input is left. -/
theorem Endless.runString_afterWords {s : State} (h : Endless s) (k : StringKind) (a : Word) {m : Nat} (hm : 65536 ∣ m) :
    (s.afterWords k a m).runString k a = s.afterWords k a (m + 65536 * 2) := by
  rw [(h.afterWords k a m).runString k a, State.afterWords_add_laps k a hm]
  rfl

/-- After the call and `n` further steps the routine has written at least `n + 1` whole laps and is still in progress. -/
theorem Endless.core_run {s : State} (h : Endless s) (hrun : s.run = .running) (k : StringKind) (a : Word) (n : Nat) :
    ∃ m, 65536 ∣ m ∧ 65536 * (n + 1) ≤ m ∧ Sys2Proof.core.run n (s.runString k a) = .next (s.afterWords k a m) := by
  induction n with
  | zero =>
    refine ⟨walkWords s, Nat.dvd_mul_right _ _, ?_, congrArg Host.Outcome.next (h.runString k a)⟩
    unfold walkWords
    omega
  | succ n ih =>
    obtain ⟨m, hdvd, hle, hn⟩ := ih
    refine ⟨m + 65536 * 2, hdvd.add (Nat.dvd_mul_right _ _), by omega, ?_⟩
    have hstep : step (s.afterWords k a m) = .next (s.afterWords k a (m + 65536 * 2)) := by
      rw [← h.runString_afterWords k a hdvd]
      exact step_of_pending (s := s.afterWords k a m) hrun rfl
    exact (core_run_succ hn).trans hstep

/-- Settles O40: what the machine has written after any number of steps is given by `Endless.core_run`. -/
theorem anEndlessStringIsWrittenForEver : Obligations.AnEndlessStringIsWrittenForEver := by
  intro s n hs hrun hcells hnone hclear
  have h : Endless s := ⟨hs, hcells, hnone, hclear⟩
  refine ⟨?_, ?_⟩
  · obtain ⟨m, -, hle, hn⟩ := h.core_run hrun .puts (s.reg .r0) n
    have written := h.afterWords_writesString .puts (s.reg .r0) m
    rw [puts_bytes_events, State.cellsFrom, List.map_map] at written
    exact ⟨_, _, m, exec_trapPuts s, hn, hle, written⟩
  · obtain ⟨m, -, hle, hn⟩ := h.core_run hrun .putsp (s.reg .r0) n
    have written := h.afterWords_writesString .putsp (s.reg .r0) m
    rw [putsp_bytes_events] at written
    exact ⟨_, _, m, exec_trapPutsp s, hn, hle, written⟩

end Sys2Proof.Machine

/-! # Proofs of the family 46_reserved: RTI and RES are the fatal abort -/

namespace Sys2Proof.Machine

/-! ## The fatal abort and its frame -/

/-- `t` is `s` with one report of `c` more and the run state ABORTED, and nothing else changed (R271). -/
def AbortsOnly (c : AbortCause) (s t : State) : Prop :=
  t.run = .aborted ∧ t.reports = s.reports ++ [c] ∧ SameCore s t ∧ (∀ a, t.peek a = s.peek a) ∧ t.input = s.input ∧
    t.output = s.output ∧ t.pending = s.pending ∧ t.cfg = s.cfg

/-- The abort is a report and a change of the run state: each of the two updates leaves every other field alone. -/
theorem State.raiseAbort_abortsOnly (s : State) (c : AbortCause) : AbortsOnly c s (s.raiseAbort c) := by
  have same : SameCore s (s.raiseAbort c) := ⟨fun r => by simp, by simp, by simp⟩
  exact ⟨by simp, by simp, same, fun a => by simp, by simp, by simp, by simp, by simp⟩

/-! ## What each reserved opcode answers -/

theorem exec_rti (s : State) : exec .rti s = .next (s.raiseAbort .rti) := rfl

theorem exec_res (s : State) : exec .res s = .next (s.raiseAbort .res) := rfl

/-- Settles O45: both are the fatal abort, each with its own label. -/
theorem rtiAndResAbort : Obligations.RtiAndResAbort := fun s =>
  ⟨⟨_, exec_rti s, s.raiseAbort_abortsOnly .rti⟩, ⟨_, exec_res s, s.raiseAbort_abortsOnly .res⟩⟩

end Sys2Proof.Machine

/-! # Proofs of the family 60_exceptions: held reads, the run states, and that nothing faults -/

namespace Sys2Proof.Machine

/-! ## A read with no byte to come is held (R279) -/

/-- Output and the mark of a held routine leave everything else as it was. -/
theorem State.emit_heldIn (s : State) (r : Routine) (out : List OutEvent) :
    HeldIn s ((s.emit out).setPending (some r)) r out where
  pending := rfl
  same := ⟨fun _ => rfl, rfl, rfl⟩
  cells _ := rfl
  input := rfl
  output := rfl
  run := rfl
  reports := rfl
  cfg := rfl

/-- Settles O34: both are held by what `InRead()` answers without a byte, GETC with no output before it, IN with its prompt. -/
theorem readsWithoutInputAreHeld : Obligations.ReadsWithoutInputAreHeld := by
  intro s h
  refine ⟨⟨_, exec_trapGetc s, ?_⟩, ⟨_, exec_trapIn s, ?_⟩⟩
  · have held := s.emit_heldIn .getc []
    rw [State.emit_nil] at held
    exact State.runGetc_of_none h ▸ held
  · have hrun := State.runIn_of_none (s := s.emit (s.cfg.inPrompt.map .byte)) h
    exact hrun ▸ s.emit_heldIn .inn _

/-! ## A held step waits for input and then completes (R279) -/

/-- Marking the routine that is already in progress changes nothing. -/
theorem State.setPending_self {s : State} {p : Option Routine} (h : s.pending = p) : s.setPending p = s := by
  subst h
  rfl

/-- A step that takes up its routine only to be held again changes nothing. -/
theorem step_of_held {s : State} {r : Routine} (hrun : s.run = .running) (hp : s.pending = some r)
    (hheld : State.resume r s = s.setPending (some r)) : step s = .next s := by
  rw [step_of_pending hrun hp, hheld, State.setPending_self hp]

/-- The first byte supplied where none was to come is the one the next read takes (R12). -/
theorem State.takeByte_supply {s : State} (h : takeByte s.input = none) (b : Byte) (rest : List InEvent) :
    takeByte (s.supply (.byte b :: rest)).input = some (b, rest) :=
  takeByte_append_of_none h (.byte b :: rest)

/-- Settles O35: without a byte the routine is held again (`step_of_held`); with the supplied one it ends as a read that had
its byte from the start, whose frame is `State.takesByte`. -/
theorem suppliedInputLiftsAHold : Obligations.SuppliedInputLiftsAHold := by
  intro s b rest hrun hnone
  have hsupplied := State.takeByte_supply hnone b rest
  refine ⟨fun hp => ⟨step_of_held hrun hp (State.runGetc_of_none hnone), _, step_of_pending hrun hp, ?getc⟩,
    fun hp => ⟨step_of_held hrun hp (State.runIn_of_none hnone), _, step_of_pending hrun hp, ?inn⟩⟩
  case getc =>
    have taken := s.takesByte b rest []
    rw [State.emit_nil] at taken
    rw [State.resume, State.runGetc_of_some hsupplied]
    exact taken
  case inn =>
    rw [State.resume, State.runIn_of_some hsupplied]
    exact s.takesByte b rest [.byte b, .flush]

/-! ## The run states (R270) -/

/-- HALT is the one instruction that leads to HALTED. -/
theorem runAfter_eq_halted_iff (i : Instr) : runAfter i = .halted ↔ i = .trapHalt := by
  cases i <;> simp [runAfter]

/-- RTI and RES are the two instructions that lead to ABORTED. -/
theorem runAfter_eq_aborted_iff (i : Instr) : runAfter i = .aborted ↔ i = .rti ∨ i = .res := by
  cases i <;> simp [runAfter]

/-- An instruction leaves a RUNNING machine in the run state of its row. -/
theorem exec_run {i : Instr} {s t : State} (hrun : s.run = .running) (e : exec i s = .next t) : t.run = runAfter i := by
  cases hi : runAfter i with
  | running => exact ((exec_run_or_pending e).1 hi).trans hrun
  | halted =>
    obtain rfl := (runAfter_eq_halted_iff i).mp hi
    cases e
    rfl
  | aborted =>
    rcases (runAfter_eq_aborted_iff i).mp hi with rfl | rfl <;> (cases e; rfl)

/-- Settles O48: a routine taken up again keeps the run state, an instruction leaves the one of its row (`exec_run`), and the
rows that end the run are HALT, RTI and RES. -/
theorem runStateTransitions : Obligations.RunStateTransitions := by
  intro s t e
  obtain ⟨hrun, ⟨r, hp, rfl⟩ | ⟨hp, e⟩⟩ := step_cases e
  · have ht : (State.resume r s).run = .running := (s.resume_run r).trans hrun
    simp [hrun, hp, ht]
  · have hfetched : s.fetch.2.run = .running := by rw [State.fetch_snd, State.setPc_run, State.polled_run, hrun]
    have ht : t.run = runAfter (decode (s.memRead s.pc).1) := exec_run hfetched e
    refine ⟨hrun, fun hne => absurd hp hne, fun _ => ht, ?_, ?_⟩
    · rw [ht, runAfter_eq_halted_iff, and_iff_right hp]
    · rw [ht, runAfter_eq_aborted_iff, and_iff_right hp]

/-! ## Nothing faults (R273) -/

/-- A step of a RUNNING machine answers a next state: of the routine in progress, or of the instruction fetched. -/
theorem step_next {s : State} (hrun : s.run = .running) : ∃ t, step s = .next t := by
  cases hp : s.pending with
  | some r => exact ⟨_, step_of_pending hrun hp⟩
  | none => exact step_of_fetch s.fetch_eq_memRead hrun hp ▸ exec_next _ _

/-- Settles O49: `exec_next` and `step_next`. -/
theorem noInstructionFaults : Obligations.NoInstructionFaults :=
  ⟨exec_next, fun _ => step_next⟩

end Sys2Proof.Machine

/-! # Proofs of the family 70_reset_and_hazards: status reads that take the input, images, and booted machines -/

namespace Sys2Proof.Machine

/-! ## Status reads take the input (R311, R315) -/

/-- A status read with a byte in front takes it from the input and latches it into the data cell. -/
theorem State.polled_latches {s : State} (hs : s.mem.wf = true) {b : Byte} {rest : List InEvent}
    (h : s.input = .byte b :: rest) :
    (s.polled s.cfg.kbsrAddr).input = rest ∧ (s.polled s.cfg.kbsrAddr).peek s.cfg.kbdrAddr = b.setWidth 16 := by
  rw [State.polled_kbsr]
  refine ⟨by rw [State.poll_of_byte h]; rfl, ?_⟩
  rw [State.poll_peek_of_byte hs h, if_pos rfl, zext16]

/-- Settles O12: each of the two status reads latches the byte in front of it. -/
theorem twoPollsLoseACharacter : Obligations.TwoPollsLoseACharacter := by
  intro s b c rest hs h
  obtain ⟨hinput, -⟩ := State.polled_latches hs h
  obtain ⟨hleft, hlatched⟩ := State.polled_latches (State.polled_wf hs s.cfg.kbsrAddr) hinput
  rw [State.polled_cfg] at hleft hlatched
  exact ⟨hlatched, hleft⟩

/-- Settles O13: the status read latches the first byte, and GETC, which writes no cell, takes the one then in front. -/
theorem getcDoesNotSeeALatchedByte : Obligations.GetcDoesNotSeeALatchedByte := by
  intro s b c rest hs h
  obtain ⟨hinput, hlatched⟩ := State.polled_latches hs h
  have hnext : takeByte (s.polled s.cfg.kbsrAddr).input = some (c, rest) := by rw [hinput, takeByte]
  obtain ⟨t, e, taken⟩ := getcReadsOneByte _ c rest hnext
  exact ⟨t, e, taken.value, (taken.cells _).trans hlatched, taken.input⟩

/-! ## Images (R304) -/

/-- A word is its two bytes put together again. -/
theorem bytes_or_eq (w : Word) : zext16 (w.extractLsb' 8 8) <<< 8 ||| zext16 (w.extractLsb' 0 8) = w := by
  apply BitVec.eq_of_getLsbD_eq
  intro i hi
  by_cases hlow : i < 8
  · simp [zext16, hlow, hi]
  · have hhigh : i - 8 < 8 := by omega
    have hadd : 8 + (i - 8) = i := by omega
    simp [zext16, hlow, hi, hhigh, hadd]

/-- An image file's words are the words it was made of. -/
theorem imageWords_bigEndian (ws : List Word) : imageWords (bigEndian ws) = ws := by
  induction ws with
  | nil => rfl
  | cons w ws ih =>
    show (zext16 (w.extractLsb' 8 8) <<< 8 ||| zext16 (w.extractLsb' 0 8)) :: imageWords (bigEndian ws) = w :: ws
    rw [bytes_or_eq, ih]

/-- Loading an image stores its words from its origin up. -/
theorem State.loadImage_bigEndian (s : State) (origin : Word) (ws : List Word) :
    s.loadImage (bigEndian (origin :: ws)) = some { s with mem := Memory.storeFrom origin.toNat ws s.mem } := by
  rw [State.loadImage, imageWords_bigEndian]

/-- A word of the image lies where the address, counted from the origin without wrapping, says. -/
theorem Memory.read_storeFrom_of_lt {m : Memory} (hm : m.wf = true) {a k : Nat} {ws : List Word} (hk : k < ws.length)
    (ha : a + k < 65536) : (Memory.storeFrom a ws m).read (a + k) = ws[k] := by
  rw [Memory.read_storeFrom hm a ws ha, if_pos (Nat.le_add_right a k), Nat.add_sub_cancel_left,
    List.getD_eq_getElem _ _ hk]

/-- A cell below the image or above it is as before. -/
theorem Memory.read_storeFrom_outside {m : Memory} (hm : m.wf = true) {a x : Nat} {ws : List Word} (hx : x < 65536)
    (hout : x < a ∨ a + ws.length ≤ x) : (Memory.storeFrom a ws m).read x = m.read x := by
  rw [Memory.read_storeFrom hm a ws hx]
  rcases hout with hbelow | habove
  · exact if_neg (Nat.not_le.mpr hbelow)
  · rw [if_pos (by omega), List.getD_eq_default _ _ (by omega)]

/-- Settles O15: the words of the file are those it was made of, and the cells read as after `Memory.storeFrom`. -/
theorem imageLoadsAtItsOrigin : Obligations.ImageLoadsAtItsOrigin := by
  intro s origin ws hs
  refine ⟨_, s.loadImage_bigEndian origin ws, fun k hk hlt => ?_, fun a hout => ?_, ⟨fun _ => rfl, rfl, rfl⟩,
    ⟨rfl, rfl, rfl, rfl⟩, rfl, rfl⟩
  · have haddr : (origin + BitVec.ofNat 16 k).toNat = origin.toNat + k := by
      rw [BitVec.toNat_add, BitVec.toNat_ofNat, Nat.add_mod_mod, Nat.mod_eq_of_lt hlt]
    rw [State.peek, haddr]
    exact Memory.read_storeFrom_of_lt hs hk hlt
  · exact Memory.read_storeFrom_outside hs a.isLt hout

/-! ## Booted machines (R301, R303, R305) -/

/-- Loading an image changes memory alone, and keeps its canonical form. -/
theorem State.loadImage_cases {img : List Byte} {s t : State} (e : s.loadImage img = some t) :
    ∃ m, t = { s with mem := m } ∧ (s.mem.wf = true → m.wf = true) := by
  unfold State.loadImage at e
  split at e
  · cases e
  next origin words _ =>
    cases e
    exact ⟨_, rfl, fun hs => Memory.storeFrom_wf hs origin.toNat words⟩

/-- Loading images in order changes memory alone, and keeps its canonical form. -/
theorem State.loadImages_cases {imgs : List (List Byte)} {s t : State} (e : State.loadImages imgs s = some t) :
    ∃ m, t = { s with mem := m } ∧ (s.mem.wf = true → m.wf = true) := by
  induction imgs generalizing s with
  | nil =>
    cases e
    exact ⟨_, rfl, id⟩
  | cons img rest ih =>
    unfold State.loadImages at e
    split at e
    next u hu =>
      obtain ⟨m, rfl, hm⟩ := State.loadImage_cases hu
      obtain ⟨m', rfl, hm'⟩ := ih e
      exact ⟨m', rfl, hm' ∘ hm⟩
    · cases e

/-- A booted machine is a reset one with another memory, in canonical form. -/
theorem boot_cases {c : Config} {images : List (List Byte)} {s : State} (e : boot c images = some s) :
    ∃ m, s = { State.resetWith c with mem := m } ∧ m.wf = true := by
  unfold boot at e
  split at e
  · cases e
  · obtain ⟨m, rfl, hm⟩ := State.loadImages_cases e
    exact ⟨m, rfl, hm (Memory.filled_wf c.memReset)⟩

/-- Settles O16: everything but memory is as reset leaves it. -/
theorem bootStartsAtPcStart : Obligations.BootStartsAtPcStart := by
  refine ⟨fun c images s e => ?_, fun _ => rfl⟩
  obtain ⟨m, rfl, -⟩ := boot_cases e
  exact ⟨rfl, rfl, State.resetWith_reg c, rfl, rfl, rfl⟩

/-- The invariant does not look at what memory in canonical form holds. -/
theorem State.Inv.setMem {s : State} (h : s.Inv) {m : Memory} (hm : m.wf = true) : ({ s with mem := m } : State).Inv :=
  { h with memory := hm }

/-- The invariant does not look at the input. -/
theorem State.Inv.supply {s : State} (h : s.Inv) (es : List InEvent) : (s.supply es).Inv :=
  ⟨h.memory, h.flags, h.parameters, h.progress⟩

/-- Settles O52: a booted machine is a reset one with another memory in canonical form, and supplying changes the input alone. -/
theorem invariantHoldsAfterBootAndSupply : Obligations.InvariantHoldsAfterBootAndSupply := by
  refine ⟨fun c images s hc e => ?_, fun s es h => h.supply es⟩
  obtain ⟨m, rfl, hm⟩ := boot_cases e
  exact (State.resetWith_inv hc).setMem hm

end Sys2Proof.Machine
